-- ==== Sys2Proof/Word.lean ====
section
/-! DEFINITION. The bit strings of the spec: bytes, halfwords, 32-bit words, 64-bit cells (00_scope.md R4, R5). -/

namespace Sys2Proof

/-- A byte of program text. -/
abbrev Byte := BitVec 8

/-- A halfword, the unit of T32 instruction text (30_encoding.md R59). -/
abbrev Half := BitVec 16

/-- A 32-bit general register, program counter or instruction word (10_state.md R37, R38). -/
abbrev Word := BitVec 32

/-- A 64-bit TTBR0 cell (10_state.md R10). -/
abbrev DWord := BitVec 64

end Sys2Proof
end

