-- ==== Sys2Proof/Config.lean ====
section
/-! DEFINITION. The implementation parameters of 00_scope.md R3 and 20_memory.md R52. A configuration is data that a
state carries and no step writes, so that a statement over every state holds for every configuration (log entry 5). -/

namespace Sys2Proof

/-- What bits [63:56] of a cell, reserved in both layouts, read as (10_state.md R30, 92_eei_decisions.md D3). -/
inductive Res0Top where
  | readAsWritten
  | readsZero
deriving DecidableEq, Repr

/-- The parameters a machine is built with (00_scope.md R3). -/
structure Config where
  /-- EL1 is capable of using AArch32, so the register is present (00_scope.md R2). -/
  el1AArch32Capable : Bool
  /-- `HaveEL(EL3)`. -/
  haveEL3 : Bool
  /-- `ELUsingAArch32(EL3)`. -/
  el3AArch32 : Bool
  /-- EL2 is implemented; only the launch premise of 10_state.md R42 (b) reads it. -/
  haveEL2 : Bool
  /-- `ELUsingAArch32(EL2)`. -/
  el2AArch32 : Bool
  /-- The implementation has IMPLEMENTATION DEFINED table features (10_state.md R23). -/
  impFeatures : Bool
  /-- Bit [0] of the 64-bit layout is the CnP bit (10_state.md R29). -/
  cnpImplemented : Bool
  /-- What bits [63:56] read as (10_state.md R30). -/
  res0TopBehaviour : Res0Top
  /-- Byte order of instruction fetch (20_memory.md R52). -/
  ifetchBigEndian : Bool
  /-- Byte order of the walker's reads of table entries; no rule in scope reads it (20_memory.md R52). -/
  walkBigEndian : Bool
deriving DecidableEq, Repr

/-- `EL3_is_AArch32` of 10_state.md R12. -/
def Config.el3IsAArch32 (c : Config) : Bool := c.haveEL3 && c.el3AArch32

end Sys2Proof
end

