-- ==== Sys2Proof/Syntax.lean ====
section
/-! DEFINITION. The instructions: one constructor for each row of spec/opcode_table.json (30_encoding.md R55 to R61).
The table has an A32 and a T32 row for each of the four accesses. -/

namespace Sys2Proof

/-- The instruction set being decoded, the input PSTATE.T (30_encoding.md R59, 92_eei_decisions.md D26). -/
inductive InstrSet where
  | a32
  | t32
deriving DecidableEq, Repr

/-- The `cond` field of an A32 word, bits [31:28] (30_encoding.md R58). The spec names three codes only: EQ is 0b0000,
NE is 0b0001 and AL is 0b1110 (95_test_vectors.md section 4.1). -/
abbrev Cond := BitVec 4

/-- The condition AL, always (30_encoding.md R58). -/
def Cond.al : Cond := 0b1110

/-- The number of a general register, `UInt(Rt)` or `UInt(Rt2)` (30_encoding.md R60). -/
abbrev RegNum := Fin 16

/-- The instructions. `t` is Rt and `t2` is Rt2 of 30_encoding.md R57. -/
inductive Instr where
  /-- A32 `MRC p15, 0, <Rt>, c2, c0, 0` (R71). -/
  | mrcA32 (cond : Cond) (t : RegNum)
  /-- A32 `MCR p15, 0, <Rt>, c2, c0, 0` (R72). -/
  | mcrA32 (cond : Cond) (t : RegNum)
  /-- A32 `MRRC p15, 0, <Rt>, <Rt2>, c2` (R73). -/
  | mrrcA32 (cond : Cond) (t t2 : RegNum)
  /-- A32 `MCRR p15, 0, <Rt>, <Rt2>, c2` (R74). -/
  | mcrrA32 (cond : Cond) (t t2 : RegNum)
  /-- T32 `MRC p15, 0, <Rt>, c2, c0, 0` (R71). -/
  | mrcT32 (t : RegNum)
  /-- T32 `MCR p15, 0, <Rt>, c2, c0, 0` (R72). -/
  | mcrT32 (t : RegNum)
  /-- T32 `MRRC p15, 0, <Rt>, <Rt2>, c2` (R73). -/
  | mrrcT32 (t t2 : RegNum)
  /-- T32 `MCRR p15, 0, <Rt>, <Rt2>, c2` (R74). -/
  | mcrrT32 (t t2 : RegNum)
deriving DecidableEq, Repr

/-- The instruction set a constructor belongs to. -/
def Instr.iset : Instr → InstrSet
  | .mrcA32 _ _ => .a32
  | .mcrA32 _ _ => .a32
  | .mrrcA32 _ _ _ => .a32
  | .mcrrA32 _ _ _ => .a32
  | .mrcT32 _ => .t32
  | .mcrT32 _ => .t32
  | .mrrcT32 _ _ => .t32
  | .mcrrT32 _ _ => .t32

end Sys2Proof
end

