-- ==== Sys2Proof/WellFormed.lean ====
section
/-! DEFINITION. Which terms of `Instr` are instructions. `WellFormed` is what the encoding allows: a decoder answers
well-formed terms only. `admitted` is what 30_encoding.md R63 leaves: a well-formed term that is not admitted decodes,
and then its meaning refuses it by name (95_test_vectors.md section 4.1). -/

namespace Sys2Proof

/-- The condition field of an A32 word "must not be 0b1111" (30_encoding.md R58). -/
def Cond.legal (c : Cond) : Bool := c != 0b1111

/-- The encoding of the instruction exists (30_encoding.md R58, R59). -/
def Instr.wellFormed : Instr → Bool
  | .mrcA32 c _ => c.legal
  | .mcrA32 c _ => c.legal
  | .mrrcA32 c _ _ => c.legal
  | .mcrrA32 c _ _ => c.legal
  | .mrcT32 _ => true
  | .mcrT32 _ => true
  | .mrrcT32 _ _ => true
  | .mcrrT32 _ _ => true

/-- `wellFormed` as a proposition. -/
abbrev Instr.WellFormed (i : Instr) : Prop := i.wellFormed = true

/-- The register numbers are ones R63 admits: none is 15, and an MRRC names two different registers. -/
def Instr.admitted : Instr → Bool
  | .mrcA32 _ t => t != 15
  | .mcrA32 _ t => t != 15
  | .mrrcA32 _ t t2 => t != 15 && t2 != 15 && t != t2
  | .mcrrA32 _ t t2 => t != 15 && t2 != 15
  | .mrcT32 t => t != 15
  | .mcrT32 t => t != 15
  | .mrrcT32 t t2 => t != 15 && t2 != 15 && t != t2
  | .mcrrT32 t t2 => t != 15 && t2 != 15

end Sys2Proof
end

