-- ==== Sys2Proof/Decode.lean ====
section
/-! DEFINITION. The decoder (30_encoding.md R58, R59, R61), total on any bytes and rejecting by name, then the encoder
over the same rows, then the byte order of instruction text (20_memory.md R52, GK17). -/

namespace Sys2Proof

/-- Why bytes are no instruction of this spec (30_encoding.md R61 `NotInScope`; the hardware's own answer is not in
the source). -/
inductive Reject where
  /-- Fewer bytes than the instruction has: the text ends inside it. -/
  | truncated
  /-- A T32 halfword that does not start a 32-bit instruction (R59), so none of the four. -/
  | notInScope16 (hw1 : Half)
  /-- A 32-bit instruction that matches no row of the opcode table for the current set. -/
  | notInScope (iset : InstrSet) (w : Word)
deriving DecidableEq, Repr

/-- One row of the opcode table: a word `w` matches when `w &&& mask = value` (30_encoding.md R58). -/
structure Row where
  mask : Word
  value : Word
deriving DecidableEq, Repr

/-- The word matches the row. -/
def Row.covers (r : Row) (w : Word) : Bool := w &&& r.mask == r.value

/-- A32 MRC row (R58). -/
def Row.mrcA32 : Row := ⟨0x0FFF0FFF, 0x0E120F10⟩
/-- A32 MCR row (R58). -/
def Row.mcrA32 : Row := ⟨0x0FFF0FFF, 0x0E020F10⟩
/-- A32 MRRC row (R58). -/
def Row.mrrcA32 : Row := ⟨0x0FF00FFF, 0x0C500F02⟩
/-- A32 MCRR row (R58). -/
def Row.mcrrA32 : Row := ⟨0x0FF00FFF, 0x0C400F02⟩
/-- T32 MRC row (R59). -/
def Row.mrcT32 : Row := ⟨0xFFFF0FFF, 0xEE120F10⟩
/-- T32 MCR row (R59). -/
def Row.mcrT32 : Row := ⟨0xFFFF0FFF, 0xEE020F10⟩
/-- T32 MRRC row (R59). -/
def Row.mrrcT32 : Row := ⟨0xFFF00FFF, 0xEC500F02⟩
/-- T32 MCRR row (R59). -/
def Row.mcrrT32 : Row := ⟨0xFFF00FFF, 0xEC400F02⟩

/-- The rows of one instruction set, in the table's order. -/
def rowsOf : InstrSet → List Row
  | .a32 => [.mrcA32, .mcrA32, .mrrcA32, .mcrrA32]
  | .t32 => [.mrcT32, .mcrT32, .mrrcT32, .mcrrT32]

/-- The row an instruction belongs to. -/
def Instr.row : Instr → Row
  | .mrcA32 _ _ => .mrcA32
  | .mcrA32 _ _ => .mcrA32
  | .mrrcA32 _ _ _ => .mrrcA32
  | .mcrrA32 _ _ _ => .mcrrA32
  | .mrcT32 _ => .mrcT32
  | .mcrT32 _ => .mcrT32
  | .mrrcT32 _ _ => .mrrcT32
  | .mcrrT32 _ _ => .mcrrT32

/-- `cond`, bits [31:28] of an A32 word (R58). -/
def condField (w : Word) : Cond := w.extractLsb' 28 4

/-- `Rt`, bits [15:12] (R58). -/
def rtField (w : Word) : RegNum := (w.extractLsb' 12 4).toFin

/-- `Rt2`, bits [19:16] (R58). -/
def rt2Field (w : Word) : RegNum := (w.extractLsb' 16 4).toFin

/-- Decode an A32 word (R58, R61): a word with cond = 0b1111 is another instruction space. -/
def decodeA32 (w : Word) : Except Reject Instr :=
  if !(condField w).legal then .error (.notInScope .a32 w)
  else if Row.mrcA32.covers w then .ok (.mrcA32 (condField w) (rtField w))
  else if Row.mcrA32.covers w then .ok (.mcrA32 (condField w) (rtField w))
  else if Row.mrrcA32.covers w then .ok (.mrrcA32 (condField w) (rtField w) (rt2Field w))
  else if Row.mcrrA32.covers w then .ok (.mcrrA32 (condField w) (rtField w) (rt2Field w))
  else .error (.notInScope .a32 w)

/-- Decode a 32-bit T32 instruction written `hw1 : hw2` (R59, R61). -/
def decodeT32 (w : Word) : Except Reject Instr :=
  if Row.mrcT32.covers w then .ok (.mrcT32 (rtField w))
  else if Row.mcrT32.covers w then .ok (.mcrT32 (rtField w))
  else if Row.mrrcT32.covers w then .ok (.mrrcT32 (rtField w) (rt2Field w))
  else if Row.mcrrT32.covers w then .ok (.mcrrT32 (rtField w) (rt2Field w))
  else .error (.notInScope .t32 w)

/-- Decode a 32-bit instruction of the given set (R61). -/
def decodeWord (iset : InstrSet) (w : Word) : Except Reject Instr :=
  match iset with
  | .a32 => decodeA32 w
  | .t32 => decodeT32 w

/-- Two bytes, the lower address first, as a halfword (20_memory.md R52, GK17). -/
def halfOfBytes (bigEndian : Bool) (b0 b1 : Byte) : Half :=
  if bigEndian then b0 ++ b1 else b1 ++ b0

/-- Four bytes, the lowest address first, as an A32 word (20_memory.md R52, GK17). -/
def wordOfBytes (bigEndian : Bool) (b0 b1 b2 b3 : Byte) : Word :=
  if bigEndian then b0 ++ b1 ++ b2 ++ b3 else b3 ++ b2 ++ b1 ++ b0

/-- `hw1[15:11]` is 0b11101, 0b11110 or 0b11111: the halfword starts a 32-bit T32 instruction (R59). -/
def startsWide (hw1 : Half) : Bool :=
  let top : BitVec 5 := hw1.extractLsb' 11 5
  top == 0b11101#5 || top == 0b11110#5 || top == 0b11111#5

/-- Decode the instruction at the head of the bytes, the lowest address first, and give the bytes after it. -/
def decodeBytes (iset : InstrSet) (bigEndian : Bool) : List Byte → Except Reject (Instr × List Byte)
  | b0 :: b1 :: rest =>
    match iset, rest with
    | .a32, b2 :: b3 :: rest' => (decodeA32 (wordOfBytes bigEndian b0 b1 b2 b3)).map (·, rest')
    | .a32, _ => .error .truncated
    | .t32, _ =>
      let hw1 := halfOfBytes bigEndian b0 b1
      if !startsWide hw1 then .error (.notInScope16 hw1)
      else match rest with
        | b2 :: b3 :: rest' =>
          (decodeT32 (hw1 ++ halfOfBytes bigEndian b2 b3 : BitVec (16 + 16))).map (·, rest')
        | _ => .error .truncated
  | _ => .error .truncated

/-- A register number as a 4-bit field. -/
def regBits (r : RegNum) : BitVec 4 := BitVec.ofNat 4 r.val

/-- A field whose lowest bit stands at bit `lo` of the word. -/
def place {n : Nat} (v : BitVec n) (lo : Nat) : Word := v.setWidth 32 <<< lo

/-- The MRC or MCR word (R58): `cond 1110 opc1 L CRn Rt coproc opc2 1 CRm` with the field values of R55. -/
def encode32 (cond : BitVec 4) (l : BitVec 1) (t : RegNum) : Word :=
  place cond 28 ||| place 0b1110#4 24 ||| place 0b000#3 21 ||| place l 20 ||| place 0b0010#4 16 |||
    place (regBits t) 12 ||| place 0b1111#4 8 ||| place 0b000#3 5 ||| place 0b1#1 4 ||| place 0b0000#4 0

/-- The MRRC or MCRR word (R58): `cond 1100010 L Rt2 Rt coproc opc1 CRm` with the field values of R56. -/
def encode64 (cond : BitVec 4) (l : BitVec 1) (t t2 : RegNum) : Word :=
  place cond 28 ||| place 0b1100010#7 21 ||| place l 20 ||| place (regBits t2) 16 ||| place (regBits t) 12 |||
    place 0b1111#4 8 ||| place 0b0000#4 4 ||| place 0b0010#4 0

/-- The word of an instruction (R58; for T32, `hw1 : hw2` with the top bits 0b1110, R59). `L` is 1 for a read. -/
def encode : Instr → Word
  | .mrcA32 c t => encode32 c 1#1 t
  | .mcrA32 c t => encode32 c 0#1 t
  | .mrrcA32 c t t2 => encode64 c 1#1 t t2
  | .mcrrA32 c t t2 => encode64 c 0#1 t t2
  | .mrcT32 t => encode32 0b1110#4 1#1 t
  | .mcrT32 t => encode32 0b1110#4 0#1 t
  | .mrrcT32 t t2 => encode64 0b1110#4 1#1 t t2
  | .mcrrT32 t t2 => encode64 0b1110#4 0#1 t t2

/-- Byte `k` of a word, byte 0 the least significant. -/
def byteOf (w : Word) (k : Nat) : Byte := w.extractLsb' (8 * k) 8

/-- The four bytes of an instruction as they stand in memory, the lowest address first (20_memory.md R52, GK17): an
A32 word as one unit, a T32 instruction as `hw1` and then `hw2`. -/
def layBytes (iset : InstrSet) (bigEndian : Bool) (w : Word) : List Byte :=
  match iset, bigEndian with
  | .a32, false => [byteOf w 0, byteOf w 1, byteOf w 2, byteOf w 3]
  | .t32, false => [byteOf w 2, byteOf w 3, byteOf w 0, byteOf w 1]
  | _, true => [byteOf w 3, byteOf w 2, byteOf w 1, byteOf w 0]

/-- The low `nbits` bits of `w` as a 32-bit instruction word, the bits above them zero. -/
def tableWord (nbits w : Nat) : Word := BitVec.ofNat 32 (w % 2 ^ nbits)

/-- What the decoder reads from a word of spec/opcode_table.json. The table numbers a T32 row as `hw1 : hw2`, and every
word of a T32 row is also a word of the A32 row of the same access with cond = AL (R59), so the word alone does not tell
the set; it is read as A32, the set of the machine after reset (log entry 16). -/
def decodeTableWord (nbits w : Nat) : Option Instr :=
  match decodeBytes .a32 false (layBytes .a32 false (tableWord nbits w)) with
  | .ok (i, _) => some i
  | .error _ => none

end Sys2Proof
end

