-- ==== Sys2Proof/Machine/State.lean ====
section
/-! DEFINITION. The state of one PE as far as the spec gives it (10_state.md, listed under INVENTORY.md's State
heading), the reasons a step can stop, and the state after reset. -/

namespace Sys2Proof.Machine

/-- The Exception levels (10_state.md R31). -/
inductive EL where
  | el0
  | el1
  | el2
  | el3
deriving DecidableEq, Repr

/-- The level of the CP15SDISABLE input: `Signal_High` or not (10_state.md R35). -/
inductive Signal where
  | high
  | notHigh
deriving DecidableEq, Repr

/-- The names of the three storage cells (10_state.md R11). -/
inductive CellName where
  | ttbr0
  | ttbr0S
  | ttbr0NS
deriving DecidableEq, Repr

/-- The state the rules read and never write (10_state.md section 6, 92_eei_decisions.md D8). A Bool is a one-bit field,
true for 1. -/
structure Env where
  /-- PSTATE.EL (R31). -/
  el : EL
  /-- PSTATE.T: the instruction set (30_encoding.md R59). -/
  iset : InstrSet
  /-- SCR.NS (R32). -/
  scrNS : Bool
  /-- HSTR.T2 (R34). -/
  hstrT2 : Bool
  /-- HCR.TVM (R34). -/
  hcrTVM : Bool
  /-- HCR.TRVM (R34). -/
  hcrTRVM : Bool
  /-- HSTR_EL2.T2 (R34). -/
  hstrEL2T2 : Bool
  /-- HCR_EL2.TVM (R34). -/
  hcrEL2TVM : Bool
  /-- HCR_EL2.TRVM (R34). -/
  hcrEL2TRVM : Bool
  /-- TTBCR.EAE (R16, R36). -/
  ttbcrEAE : Bool
  /-- TTBCR.N, 3 bits (R19, R36). -/
  ttbcrN : Fin 8
  /-- TTBCR.T0SZ, 3 bits (R28, R36). -/
  ttbcrT0SZ : Fin 8
  /-- TTBCR.A1 (R27, R36). -/
  ttbcrA1 : Bool
  /-- TTBR1.ASID (R27, R36). -/
  ttbr1ASID : BitVec 8
deriving DecidableEq, Repr

/-- The inputs that may differ from step to step (10_state.md R33, R35, R39). -/
structure StepInputs where
  /-- `EL2Enabled()` (R33). -/
  el2Enabled : Bool
  /-- The CP15SDISABLE signal (R35). -/
  cp15sdisable : Signal
  /-- `ConditionPassed` for the instruction of this step (R39). -/
  conditionPassed : Bool
deriving DecidableEq, Repr

/-- Program text: (address, byte) pairs, addresses strictly rising and below 2^32. An unlisted address holds no byte
(log entry 7). -/
abbrev Memory := List Host.Cell

structure State where
  /-- The cell TTBR0 (R11). -/
  ttbr0 : DWord
  /-- The cell TTBR0_S (R11). -/
  ttbr0S : DWord
  /-- The cell TTBR0_NS (R11). -/
  ttbr0NS : DWord
  /-- The general registers x[0] to x[15] (R37). -/
  regs : Vector Word 16
  /-- The address of the instruction being executed (R38). -/
  pc : Word
  /-- The implementation parameters (00_scope.md R3). -/
  config : Config
  /-- The environment record (section 6). -/
  env : Env
  /-- The inputs of this step. -/
  inputs : StepInputs
  /-- The inputs of later steps, the next one first; when it is empty the inputs hold (the model's own, log entry 6). -/
  laterInputs : List StepInputs
  /-- The program text (70_reset_and_hazards.md R104). -/
  mem : Memory
deriving DecidableEq, Repr

/-- The exceptional outcomes of 60_exceptions.md R80. Each ends the run with every register and cell as it was
(R88): nothing of the handler can be claimed, which is safe. -/
inductive Fault where
  /-- `Undefined` (R81). Raised by all four accesses at EL0 and where the register is absent, and by MCR and MCRR at EL3
  with SCR.NS = 0 while CP15SDISABLE is high. Safe. -/
  | undefined
  /-- `HypTrap(ec)` (R82). Raised by all four at EL1 while EL2 is enabled and using AArch32 and a control traps; `ec` is
  0x03 or 0x04 (R84). Safe. -/
  | hypTrap (ec : Nat)
  /-- `AArch64SystemAccessTrap(target, ec)` (R83). Raised by all four at EL1 while EL2 is enabled and not using AArch32
  and a control traps; the target is EL2. Safe. -/
  | aarch64SystemAccessTrap (target : EL) (ec : Nat)
deriving DecidableEq, Repr

/-- The reasons the model gives no step. -/
inductive Refusal where
  /-- An instruction that has no meaning yet, raised by exec's own arms. Safe. -/
  | notModelled (mnemonic : String)
  /-- There is no program text at pc: the normal end of a run (70_reset_and_hazards.md R104 (a)), of which the spec says
  nothing more. Raised by the fetch. Safe. -/
  | endOfProgram
  /-- The bytes at pc are no instruction of the spec (30_encoding.md R61). Raised by the fetch. Safe. -/
  | rejected (r : Reject)
  /-- A form with register 15 as Rt or Rt2 (30_encoding.md R63). Raised by all four. Safe. -/
  | registerFifteen
  /-- MRRC with t = t2 (30_encoding.md R63). Raised by MRRC. Safe. -/
  | mrrcSameRegister
  /-- The condition failed and the same access with the condition passed would raise an exceptional outcome
  (40_system_register_access.md R65). Raised by all four. Safe. -/
  | conditionFailedWouldRaise
deriving DecidableEq, Repr

/-- The outcome of a step or of a meaning. -/
abbrev Outcome := Host.Outcome State Fault Refusal

/-- The parameters of `State.reset` (DESIGN CHOICE, log entry 3): every exception level implemented, EL2 and EL3 using
AArch32. -/
def Config.atReset : Config where
  el1AArch32Capable := true
  haveEL3 := true
  el3AArch32 := true
  haveEL2 := true
  el2AArch32 := true
  impFeatures := false
  cnpImplemented := true
  res0TopBehaviour := .readAsWritten
  ifetchBigEndian := false
  walkBigEndian := false

/-- The environment of `State.reset` (log entry 4): the highest implemented Exception level in Secure state (PRESUMED,
GK8), no trap control set (DESIGN CHOICE). -/
def Env.atReset : Env where
  el := .el3
  iset := .a32
  scrNS := false
  hstrT2 := false
  hcrTVM := false
  hcrTRVM := false
  hstrEL2T2 := false
  hcrEL2TVM := false
  hcrEL2TRVM := false
  ttbcrEAE := false
  ttbcrN := 0
  ttbcrT0SZ := 0
  ttbcrA1 := false
  ttbr1ASID := 0

/-- The inputs of `State.reset` (log entry 4). -/
def StepInputs.atReset : StepInputs where
  el2Enabled := false
  cp15sdisable := .notHigh
  conditionPassed := true

/-- The machine after a reset that draws `d`, `dS` and `dNS` for the three cells (10_state.md R41, 70_reset_and_hazards.md
R95): the source states no reset value, so the content of each cell is any 64-bit value. -/
def State.resetDraw (d dS dNS : DWord) : State where
  ttbr0 := d
  ttbr0S := dS
  ttbr0NS := dNS
  regs := Vector.replicate 16 0
  pc := 0
  config := Config.atReset
  env := Env.atReset
  inputs := StepInputs.atReset
  laterInputs := []
  mem := []

/-- The machine right after reset, with the draws of `resetDraw` at the value log entry 2 names (DESIGN CHOICE, unsafe):
no statement rests on them. -/
def State.reset : State := State.resetDraw 0 0 0

end Sys2Proof.Machine
end

