-- ==== Sys2Proof/Machine/Flags.lean ====
section
/-! DEFINITION. No instruction in scope reads or writes a flag (10_state.md R39): the flags enter only through the input
ConditionPassed, and this file says when an instruction reads it (40_system_register_access.md R65). -/

namespace Sys2Proof.Machine

/-- ConditionPassed for an A32 condition: AL always passes; any other condition is the input's value (R39, R65). -/
def passesA32 (cond : Cond) (s : State) : Bool := cond == Cond.al || s.inputs.conditionPassed

/-- ConditionPassed for a T32 access, whose condition comes from an enclosing IT block (30_encoding.md R59): the input's
value (92_eei_decisions.md D26). -/
def passesT32 (s : State) : Bool := s.inputs.conditionPassed

end Sys2Proof.Machine
end

