-- ==== Sys2Proof/Machine/Ops.lean ====
section
/-! DEFINITION. The named operations over memory, registers and cells, and the parts the four accesses share: the trap
check, the choice of cell, the order of the tests, and the raising of an exceptional outcome (40_system_register_access.md
section 1). -/

namespace Sys2Proof.Machine

/-! ### Program text -/

/-- The byte at an address, where one is listed. -/
def Memory.read : Memory → Nat → Option Byte
  | [], _ => none
  | (k, b) :: m, a => if k = a then some b else Memory.read m a

/-- Put a byte at an address, keeping the addresses rising. -/
def Memory.write : Memory → Nat → Byte → Memory
  | [], a, b => [(a, b)]
  | (k, c) :: m, a, b =>
    if a < k then (a, b) :: (k, c) :: m
    else if a = k then (a, b) :: m
    else (k, c) :: Memory.write m a b

/-- Every address of the text is above `lo` and each is above the one before it. -/
def Memory.risingFrom : Nat → Memory → Bool
  | _, [] => true
  | lo, (k, _) :: m => decide (lo ≤ k) && Memory.risingFrom (k + 1) m

/-- The canonical form: addresses strictly rising and below 2^32. -/
def Memory.wf (m : Memory) : Bool := Memory.risingFrom 0 m && m.all (fun c => decide (c.1 < 2 ^ 32))

/-- The listed bytes at `a`, `a + 1`, … (modulo 2^32, as pc wraps in 10_state.md R38), at most `n`, up to the first
address that lists none. -/
def Memory.run (m : Memory) (a : Word) : Nat → List Byte
  | 0 => []
  | n + 1 =>
    match Memory.read m a.toNat with
    | none => []
    | some b => b :: Memory.run m (a + 1) n

/-- Put bytes at `a`, `a + 1`, … (modulo 2^32). -/
def Memory.load (m : Memory) (a : Word) : List Byte → Memory
  | [] => m
  | b :: bs => Memory.load (Memory.write m a.toNat b) (a + 1) bs

/-! ### General registers and pc -/

/-- `x[i]` (00_scope.md R7, 10_state.md R37). -/
def State.reg (s : State) (i : RegNum) : Word := s.regs[i]

/-- `x[i] <- v`. -/
def State.setReg (s : State) (i : RegNum) (v : Word) : State := { s with regs := s.regs.set i v }

/-- `pc <- pc + 4`, modulo 2^32 (10_state.md R38). -/
def State.advancePc (s : State) : State := { s with pc := s.pc + 4 }

/-! ### The cells -/

/-- The 64 stored bits of a cell. -/
def State.cell (s : State) : CellName → DWord
  | .ttbr0 => s.ttbr0
  | .ttbr0S => s.ttbr0S
  | .ttbr0NS => s.ttbr0NS

/-- Store 64 bits in a cell, verbatim (10_state.md R30). -/
def State.setCell (s : State) (c : CellName) (v : DWord) : State :=
  match c with
  | .ttbr0 => { s with ttbr0 := v }
  | .ttbr0S => { s with ttbr0S := v }
  | .ttbr0NS => { s with ttbr0NS := v }

/-- Bits [31:0] of a cell value. -/
def lowWord (v : DWord) : Word := v.extractLsb' 0 32

/-- Bits [63:32] of a cell value. -/
def highWord (v : DWord) : Word := v.extractLsb' 32 32

/-- `hi : lo` (00_scope.md R5). -/
def joinWords (hi lo : Word) : DWord := hi ++ lo

/-- `v[31:0] <- w`: the other bits stay (10_state.md R15). -/
def withLowWord (v : DWord) (w : Word) : DWord := joinWords (highWord v) w

/-- What a stored value reads as: the bits reserved in both layouts, [63:56], may read as zero (10_state.md R30). -/
def res0View (b : Res0Top) (v : DWord) : DWord :=
  match b with
  | .readAsWritten => v
  | .readsZero => v &&& 0x00FFFFFFFFFFFFFF

/-- The 64 bits an access reads from a cell. -/
def State.readCell (s : State) (c : CellName) : DWord := res0View s.config.res0TopBehaviour (s.cell c)

/-! ### Taking an exception -/

/-- `raise <Outcome>`: the step ends in the named outcome, no register or cell is written and pc stays at the access
(60_exceptions.md R88, 40_system_register_access.md R69). The source gives no entry (no saved register, no vector), so the
outcome ends the run; there is no return (60_exceptions.md R89). -/
def raise (f : Fault) : Outcome := .fault f

/-! ### The tests of an access -/

/-- `is_write` of R66: whether an access reads or writes the cell. -/
inductive Direction where
  | read
  | write
deriving DecidableEq, Repr

/-- The code 0x03 of MRC and MCR (60_exceptions.md R84). -/
def ecWord : Nat := 0x03

/-- The code 0x04 of MRRC and MCRR (60_exceptions.md R84). -/
def ecDouble : Nat := 0x04

/-- HCR.TRVM for a read, HCR.TVM for a write (R66). -/
def Env.hcrControl (e : Env) : Direction → Bool
  | .read => e.hcrTRVM
  | .write => e.hcrTVM

/-- HCR_EL2.TRVM for a read, HCR_EL2.TVM for a write (R66). -/
def Env.hcrEL2Control (e : Env) : Direction → Bool
  | .read => e.hcrEL2TRVM
  | .write => e.hcrEL2TVM

/-- `TrapCheckEL1(is_write, ec)` (R66): the trap that ends the access, if one does. -/
def trapCheckEL1 (d : Direction) (ec : Nat) (s : State) : Option Fault :=
  if s.inputs.el2Enabled && !s.config.el2AArch32 && s.env.hstrEL2T2 then some (.aarch64SystemAccessTrap .el2 ec)
  else if s.inputs.el2Enabled && s.config.el2AArch32 && s.env.hstrT2 then some (.hypTrap ec)
  else if s.inputs.el2Enabled && !s.config.el2AArch32 && s.env.hcrEL2Control d then
    some (.aarch64SystemAccessTrap .el2 ec)
  else if s.inputs.el2Enabled && s.config.el2AArch32 && s.env.hcrControl d then some (.hypTrap ec)
  else none

/-- `SelectInstance()` (10_state.md R12) for an Exception level and a value of SCR.NS; at EL0 no cell is reached. -/
def selectInstance (c : Config) (el : EL) (ns : Bool) : Option CellName :=
  match el with
  | .el0 => none
  | .el1 => some (if c.el3IsAArch32 then .ttbr0NS else .ttbr0)
  | .el2 => some (if c.el3IsAArch32 then .ttbr0NS else .ttbr0)
  | .el3 => some (if ns then .ttbr0NS else .ttbr0S)

/-- The write disable of R68: a write at EL3 with SCR.NS = 0 while CP15SDISABLE is high. -/
def writeDisabled (d : Direction) (s : State) : Bool :=
  d == .write && !s.env.scrNS && s.inputs.cp15sdisable == .high

/-- The cell that the selection gives, or `Undefined` where it gives none (EL0). -/
def selectedCell (s : State) : Except Fault CellName :=
  match selectInstance s.config s.env.el s.env.scrNS with
  | some c => .ok c
  | none => .error .undefined

/-- The skeleton of R67, up to the data movement: the cell the access reaches, or the outcome it raises. -/
def accessTarget (d : Direction) (ec : Nat) (s : State) : Except Fault CellName :=
  match s.env.el with
  | .el0 => .error .undefined
  | .el1 =>
    match trapCheckEL1 d ec s with
    | some f => .error f
    | none => selectedCell s
  | .el2 => selectedCell s
  | .el3 => if writeDisabled d s then .error .undefined else selectedCell s

/-- What an access whose condition passes comes to, up to the data movement: presence stands before the pseudocode's own
tests (R65, 60_exceptions.md R87), so an access to an absent register is `Undefined` at every level (00_scope.md R2). -/
def presentTarget (d : Direction) (ec : Nat) (s : State) : Except Fault CellName :=
  if s.config.el1AArch32Capable then accessTarget d ec s else .error .undefined

/-- An access of an admitted form (R65, R67, R70). `passed` is ConditionPassed and `move` the data movement on the chosen
cell. A condition-failed access is skipped where the same access with the condition passed would reach a cell, and refused
where it would raise, `Undefined` for want of the register included (R65, log entries 11 and 12). -/
def access (d : Direction) (ec : Nat) (passed : Bool) (move : CellName → State → State) (s : State) : Outcome :=
  match presentTarget d ec s with
  | .error f => if passed then raise f else .refused .conditionFailedWouldRaise
  | .ok c => if passed then .next (move c s).advancePc else .next s.advancePc

/-! ### Fetch and the inputs of the next step -/

/-- Fetch and decode the instruction at pc (30_encoding.md R61, 70_reset_and_hazards.md R104): no text at pc is the end of
the program. -/
def fetch (s : State) : Except Refusal Instr :=
  match Memory.run s.mem s.pc 4 with
  | [] => .error .endOfProgram
  | b :: bs =>
    match decodeBytes s.env.iset s.config.ifetchBigEndian (b :: bs) with
    | .ok (i, _) => .ok i
    | .error r => .error (.rejected r)

/-- Between two instructions the inputs of the next step arrive (log entry 6). -/
def State.nextInputs (s : State) : State :=
  match s.laterInputs with
  | [] => s
  | i :: rest => { s with inputs := i, laterInputs := rest }

/-- What a step adds to a meaning that completed: the inputs of the next step. A stop stays as it is. -/
def afterExec : Outcome → Outcome
  | .next s => .next s.nextInputs
  | .fault f => .fault f
  | .refused r => .refused r

/-- The instruction `w`, of `nbits` bits, laid at pc in the byte order and instruction set of the state. -/
def State.placeAtPc (s : State) (nbits w : Nat) : State :=
  { s with mem := Memory.load s.mem s.pc (layBytes s.env.iset s.config.ifetchBigEndian (tableWord nbits w)) }

end Sys2Proof.Machine
end

