-- ==== Sys2Proof/Machine/Operands.lean ====
section
/-! DEFINITION. The operand forms: which register numbers are refused (30_encoding.md R63), and the four data movements
between general registers and a cell (40_system_register_access.md R71 to R74, R79). -/

namespace Sys2Proof.Machine

/-- The refusal of an MRC or MCR form (R63). -/
def refuseWord (t : RegNum) : Option Refusal :=
  if t = 15 then some .registerFifteen else none

/-- The refusal of an MRRC form (R63): register 15, or one register named twice. -/
def refuseReadPair (t t2 : RegNum) : Option Refusal :=
  if t = 15 ∨ t2 = 15 then some .registerFifteen
  else if t = t2 then some .mrrcSameRegister
  else none

/-- The refusal of an MCRR form (R63): t = t2 is admitted. -/
def refuseWritePair (t t2 : RegNum) : Option Refusal :=
  if t = 15 ∨ t2 = 15 then some .registerFifteen else none

/-- `x[t] <- cell[31:0]` (R71). -/
def moveToReg (t : RegNum) (c : CellName) (s : State) : State :=
  s.setReg t (lowWord (s.readCell c))

/-- `cell[31:0] <- x[t]` (R72). -/
def moveFromReg (t : RegNum) (c : CellName) (s : State) : State :=
  s.setCell c (withLowWord (s.cell c) (s.reg t))

/-- `(x[t2], x[t]) <- (cell[63:32], cell[31:0])`, the cell read once (R73). -/
def moveToPair (t t2 : RegNum) (c : CellName) (s : State) : State :=
  let v := s.readCell c
  (s.setReg t2 (highWord v)).setReg t (lowWord v)

/-- `cell <- x[t2] : x[t]` (R74). -/
def moveFromPair (t t2 : RegNum) (c : CellName) (s : State) : State :=
  s.setCell c (joinWords (s.reg t2) (s.reg t))

/-- Run an access unless its form is refused: R65 (1) stands before every other test. -/
def unlessRefused (r : Option Refusal) (o : Outcome) : Outcome :=
  match r with
  | some why => .refused why
  | none => o

end Sys2Proof.Machine
end

