-- ==== Sys2Proof/Machine/PairAccess.lean ====
section
/-! DEFINITION. The 64-bit accesses MRRC and MCRR, A32 and T32 (40_system_register_access.md R73, R74). -/

namespace Sys2Proof.Machine

/-- A32 MRRC (R73). -/
def execMrrcA32 (cond : Cond) (t t2 : RegNum) (s : State) : Outcome :=
  unlessRefused (refuseReadPair t t2) (access .read ecDouble (passesA32 cond s) (moveToPair t t2) s)

/-- A32 MCRR (R74). -/
def execMcrrA32 (cond : Cond) (t t2 : RegNum) (s : State) : Outcome :=
  unlessRefused (refuseWritePair t t2) (access .write ecDouble (passesA32 cond s) (moveFromPair t t2) s)

/-- T32 MRRC (R73). -/
def execMrrcT32 (t t2 : RegNum) (s : State) : Outcome :=
  unlessRefused (refuseReadPair t t2) (access .read ecDouble (passesT32 s) (moveToPair t t2) s)

/-- T32 MCRR (R74). -/
def execMcrrT32 (t t2 : RegNum) (s : State) : Outcome :=
  unlessRefused (refuseWritePair t t2) (access .write ecDouble (passesT32 s) (moveFromPair t t2) s)

end Sys2Proof.Machine
end

