-- ==== Sys2Proof/Machine/WordAccess.lean ====
section
/-! DEFINITION. The 32-bit accesses MRC and MCR, A32 and T32 (40_system_register_access.md R71, R72). -/

namespace Sys2Proof.Machine

/-- A32 MRC (R71). -/
def execMrcA32 (cond : Cond) (t : RegNum) (s : State) : Outcome :=
  unlessRefused (refuseWord t) (access .read ecWord (passesA32 cond s) (moveToReg t) s)

/-- A32 MCR (R72). -/
def execMcrA32 (cond : Cond) (t : RegNum) (s : State) : Outcome :=
  unlessRefused (refuseWord t) (access .write ecWord (passesA32 cond s) (moveFromReg t) s)

/-- T32 MRC (R71). -/
def execMrcT32 (t : RegNum) (s : State) : Outcome :=
  unlessRefused (refuseWord t) (access .read ecWord (passesT32 s) (moveToReg t) s)

/-- T32 MCR (R72). -/
def execMcrT32 (t : RegNum) (s : State) : Outcome :=
  unlessRefused (refuseWord t) (access .write ecWord (passesT32 s) (moveFromReg t) s)

end Sys2Proof.Machine
end

