-- ==== Sys2Proof/Machine/Dispatch.lean ====
section
/-! DEFINITION. exec: one arm for each constructor of Instr. -/

namespace Sys2Proof.Machine

def exec (i : Instr) (s : State) : Host.Outcome State Fault Refusal :=
  match i with
  | .mrcA32 cond t => Sys2Proof.Machine.execMrcA32 cond t s
  | .mcrA32 cond t => Sys2Proof.Machine.execMcrA32 cond t s
  | .mrrcA32 cond t t2 => Sys2Proof.Machine.execMrrcA32 cond t t2 s
  | .mcrrA32 cond t t2 => Sys2Proof.Machine.execMcrrA32 cond t t2 s
  | .mrcT32 t => Sys2Proof.Machine.execMrcT32 t s
  | .mcrT32 t => Sys2Proof.Machine.execMcrT32 t s
  | .mrrcT32 t t2 => Sys2Proof.Machine.execMrrcT32 t t2 s
  | .mcrrT32 t t2 => Sys2Proof.Machine.execMcrrT32 t t2 s

end Sys2Proof.Machine
end

