-- ==== Sys2Proof/Machine/Step.lean ====
section
/-! DEFINITION. One step of the machine: fetch, decode, run, and take the inputs of the next step. -/

namespace Sys2Proof.Machine

/-- One step (70_reset_and_hazards.md R104). -/
def step (s : State) : Host.Outcome State Fault Refusal :=
  match fetch s with
  | .ok i => afterExec (exec i s)
  | .error r => .refused r

/-- The state with the instruction `w` of `nbits` bits stored where `step` fetches its next instruction (log entries 7
and 16). -/
def State.withFetchWord (s : State) (nbits w : Nat) : State := s.placeAtPc nbits w

end Sys2Proof.Machine
end

