-- ==== Sys2Proof/Machine/Pseudocode.lean ====
section
/-! DEFINITION. The access pseudocode of 40_system_register_access.md R71 to R74, arm by arm as the rules print it, from
after the tests of R65 (register present, condition passed, form admitted). The meanings are built from the skeleton of
R67 instead; R79 says that the two agree. It reads reserved bits literally (res0_top_behaviour = ReadAsWritten, R30). -/

namespace Sys2Proof.Machine

/-- The pseudocode of MRC (R71). -/
def mrcPseudocode (t : RegNum) (s : State) : Outcome :=
  let done (v : DWord) : Outcome := .next { s with regs := s.regs.set t (lowWord v), pc := s.pc + 4 }
  match s.env.el with
  | .el0 => .fault .undefined
  | .el1 =>
    if s.inputs.el2Enabled && !s.config.el2AArch32 && s.env.hstrEL2T2 then .fault (.aarch64SystemAccessTrap .el2 0x03)
    else if s.inputs.el2Enabled && s.config.el2AArch32 && s.env.hstrT2 then .fault (.hypTrap 0x03)
    else if s.inputs.el2Enabled && !s.config.el2AArch32 && s.env.hcrEL2TRVM then
      .fault (.aarch64SystemAccessTrap .el2 0x03)
    else if s.inputs.el2Enabled && s.config.el2AArch32 && s.env.hcrTRVM then .fault (.hypTrap 0x03)
    else if s.config.haveEL3 && s.config.el3AArch32 then done s.ttbr0NS
    else done s.ttbr0
  | .el2 => if s.config.haveEL3 && s.config.el3AArch32 then done s.ttbr0NS else done s.ttbr0
  | .el3 => if !s.env.scrNS then done s.ttbr0S else done s.ttbr0NS

/-- The pseudocode of MCR (R72). -/
def mcrPseudocode (t : RegNum) (s : State) : Outcome :=
  let put (v : DWord) : DWord := highWord v ++ s.regs[t]
  let toNS : Outcome := .next { s with ttbr0NS := put s.ttbr0NS, pc := s.pc + 4 }
  let toSingle : Outcome := .next { s with ttbr0 := put s.ttbr0, pc := s.pc + 4 }
  match s.env.el with
  | .el0 => .fault .undefined
  | .el1 =>
    if s.inputs.el2Enabled && !s.config.el2AArch32 && s.env.hstrEL2T2 then .fault (.aarch64SystemAccessTrap .el2 0x03)
    else if s.inputs.el2Enabled && s.config.el2AArch32 && s.env.hstrT2 then .fault (.hypTrap 0x03)
    else if s.inputs.el2Enabled && !s.config.el2AArch32 && s.env.hcrEL2TVM then
      .fault (.aarch64SystemAccessTrap .el2 0x03)
    else if s.inputs.el2Enabled && s.config.el2AArch32 && s.env.hcrTVM then .fault (.hypTrap 0x03)
    else if s.config.haveEL3 && s.config.el3AArch32 then toNS
    else toSingle
  | .el2 => if s.config.haveEL3 && s.config.el3AArch32 then toNS else toSingle
  | .el3 =>
    if !s.env.scrNS && s.inputs.cp15sdisable == .high then .fault .undefined
    else if !s.env.scrNS then .next { s with ttbr0S := put s.ttbr0S, pc := s.pc + 4 }
    else toNS

/-- The pseudocode of MRRC (R73): the high word is written to x[t2] and the low word to x[t]. -/
def mrrcPseudocode (t t2 : RegNum) (s : State) : Outcome :=
  let done (v : DWord) : Outcome :=
    .next { s with regs := (s.regs.set t2 (highWord v)).set t (lowWord v), pc := s.pc + 4 }
  match s.env.el with
  | .el0 => .fault .undefined
  | .el1 =>
    if s.inputs.el2Enabled && !s.config.el2AArch32 && s.env.hstrEL2T2 then .fault (.aarch64SystemAccessTrap .el2 0x04)
    else if s.inputs.el2Enabled && s.config.el2AArch32 && s.env.hstrT2 then .fault (.hypTrap 0x04)
    else if s.inputs.el2Enabled && !s.config.el2AArch32 && s.env.hcrEL2TRVM then
      .fault (.aarch64SystemAccessTrap .el2 0x04)
    else if s.inputs.el2Enabled && s.config.el2AArch32 && s.env.hcrTRVM then .fault (.hypTrap 0x04)
    else if s.config.haveEL3 && s.config.el3AArch32 then done s.ttbr0NS
    else done s.ttbr0
  | .el2 => if s.config.haveEL3 && s.config.el3AArch32 then done s.ttbr0NS else done s.ttbr0
  | .el3 => if !s.env.scrNS then done s.ttbr0S else done s.ttbr0NS

/-- The pseudocode of MCRR (R74). -/
def mcrrPseudocode (t t2 : RegNum) (s : State) : Outcome :=
  let v : DWord := s.regs[t2] ++ s.regs[t]
  let toNS : Outcome := .next { s with ttbr0NS := v, pc := s.pc + 4 }
  let toSingle : Outcome := .next { s with ttbr0 := v, pc := s.pc + 4 }
  match s.env.el with
  | .el0 => .fault .undefined
  | .el1 =>
    if s.inputs.el2Enabled && !s.config.el2AArch32 && s.env.hstrEL2T2 then .fault (.aarch64SystemAccessTrap .el2 0x04)
    else if s.inputs.el2Enabled && s.config.el2AArch32 && s.env.hstrT2 then .fault (.hypTrap 0x04)
    else if s.inputs.el2Enabled && !s.config.el2AArch32 && s.env.hcrEL2TVM then
      .fault (.aarch64SystemAccessTrap .el2 0x04)
    else if s.inputs.el2Enabled && s.config.el2AArch32 && s.env.hcrTVM then .fault (.hypTrap 0x04)
    else if s.config.haveEL3 && s.config.el3AArch32 then toNS
    else toSingle
  | .el2 => if s.config.haveEL3 && s.config.el3AArch32 then toNS else toSingle
  | .el3 =>
    if !s.env.scrNS && s.inputs.cp15sdisable == .high then .fault .undefined
    else if !s.env.scrNS then .next { s with ttbr0S := v, pc := s.pc + 4 }
    else toNS

end Sys2Proof.Machine
end

