-- ==== Sys2Proof/Machine/Run.lean ====
section
/-! DEFINITION. The end of a run (70_reset_and_hazards.md R104): a run keeps the state it stops in, which is the state
before the step that stopped (60_exceptions.md R88). -/

namespace Sys2Proof.Machine

/-- How a run of at most `n` steps stands. -/
inductive RunEnd where
  /-- R104 (a): there is no program text at pc. -/
  | normal (s : State)
  /-- R104 (b): an exceptional outcome, with the state it leaves. -/
  | fault (f : Fault) (s : State)
  /-- R104 (c): a word out of scope, a refused form, or R65's refused condition. -/
  | refusal (r : Refusal) (s : State)
  /-- The run has not ended in the steps given. -/
  | running (s : State)
deriving DecidableEq, Repr

/-- Run at most `n` steps. -/
def runEnd : Nat → State → RunEnd
  | 0, s => .running s
  | n + 1, s =>
    match step s with
    | .next s' => runEnd n s'
    | .fault f => .fault f s
    | .refused .endOfProgram => .normal s
    | .refused r => .refusal r s

/-- The state a run stands in. -/
def RunEnd.state : RunEnd → State
  | .normal s => s
  | .fault _ s => s
  | .refusal _ s => s
  | .running s => s

end Sys2Proof.Machine
end

