-- ==== Sys2Proof/Machine/Walk.lean ====
section
/-! DEFINITION. The interface to translation: the fields of a cell value under each layout (10_state.md R16 to R29) and
the functions of the value that a table walk uses (20_memory.md R43 to R49, R54). Each takes the cell's value as an
argument: the spec does not say when a walk sees a written value (70_reset_and_hazards.md R100, log entry 20). -/

namespace Sys2Proof.Machine

/-- The two layouts of the 64 bits (10_state.md R16). -/
inductive Layout where
  | bits32
  | bits64
deriving DecidableEq, Repr

/-- TTBCR.EAE selects the layout (R16). -/
def layoutOf (eae : Bool) : Layout := if eae then .bits64 else .bits32

/-! ### The fields -/

/-- The fields of the 32-bit layout (R17). -/
structure Fields32 where
  /-- [63:32], reserved (R18). -/
  res0 : BitVec 32
  /-- [31:7] (R19). -/
  ttb0 : BitVec 25
  /-- IRGN[1:0]: register bit [0] above register bit [6] (R20). -/
  irgn : BitVec 2
  /-- [5] (R21). -/
  nos : BitVec 1
  /-- [4:3] (R22). -/
  rgn : BitVec 2
  /-- [2] (R23). -/
  imp : BitVec 1
  /-- [1] (R24). -/
  s : BitVec 1
deriving DecidableEq, Repr

/-- A cell value read under the 32-bit layout (R17). -/
def fields32 (cell : DWord) : Fields32 where
  res0 := cell.extractLsb' 32 32
  ttb0 := cell.extractLsb' 7 25
  irgn := cell.extractLsb' 0 1 ++ cell.extractLsb' 6 1
  nos := cell.extractLsb' 5 1
  rgn := cell.extractLsb' 3 2
  imp := cell.extractLsb' 2 1
  s := cell.extractLsb' 1 1

/-- The cell value with the given fields under the 32-bit layout (R17). -/
def Fields32.pack (f : Fields32) : DWord :=
  f.res0 ++ f.ttb0 ++ f.irgn.extractLsb' 0 1 ++ f.nos ++ f.rgn ++ f.imp ++ f.s ++ f.irgn.extractLsb' 1 1

/-- The fields of the 64-bit layout (R25). -/
structure Fields64 where
  /-- [63:56], reserved (R26). -/
  res0 : BitVec 8
  /-- [55:48] (R27). -/
  asid : BitVec 8
  /-- [47:1] (R28). -/
  baddr : BitVec 47
  /-- [0] (R29). -/
  cnp : BitVec 1
deriving DecidableEq, Repr

/-- A cell value read under the 64-bit layout (R25). -/
def fields64 (cell : DWord) : Fields64 where
  res0 := cell.extractLsb' 56 8
  asid := cell.extractLsb' 48 8
  baddr := cell.extractLsb' 1 47
  cnp := cell.extractLsb' 0 1

/-- The cell value with the given fields under the 64-bit layout (R25). -/
def Fields64.pack (f : Fields64) : DWord := f.res0 ++ f.asid ++ f.baddr ++ f.cnp

/-! ### Attributes of the table walk (20_memory.md R49) -/

/-- The cacheability values of IRGN and RGN, all of Normal memory (R20, R22). -/
inductive Cacheability where
  | nonCacheable
  | writeBackWriteAllocate
  | writeThrough
  | writeBackNoWriteAllocate
deriving DecidableEq, Repr

/-- The value tables of R20 and R22. -/
def cacheabilityOf (code : BitVec 2) : Cacheability :=
  if code = 0b00 then .nonCacheable
  else if code = 0b01 then .writeBackWriteAllocate
  else if code = 0b10 then .writeThrough
  else .writeBackNoWriteAllocate

/-- The shareability values (R49). -/
inductive Shareability where
  | nonShareable
  | outerShareable
  | innerShareable
deriving DecidableEq, Repr

/-- The attributes of the memory of the table walk (R49). -/
structure WalkAttrs where
  inner : Cacheability
  outer : Cacheability
  shareability : Shareability
deriving DecidableEq, Repr

/-- S and NOS together (R21, R24, R49): NOS is ignored when S is 0. -/
def shareabilityOf (s nos : BitVec 1) : Shareability :=
  if s = 0 then .nonShareable
  else if nos = 0 then .outerShareable
  else .innerShareable

/-- `WalkAttrs32` (R49). -/
def walkAttrs32 (cell : DWord) : WalkAttrs where
  inner := cacheabilityOf (fields32 cell).irgn
  outer := cacheabilityOf (fields32 cell).rgn
  shareability := shareabilityOf (fields32 cell).s (fields32 cell).nos

/-- The attributes TTBR0 gives under a layout: under the 64-bit layout it gives none (R49). -/
def walkAttrs (layout : Layout) (cell : DWord) : Option WalkAttrs :=
  match layout with
  | .bits32 => some (walkAttrs32 cell)
  | .bits64 => none

/-! ### The table base -/

/-- `x = 14 - TTBCR.N` (10_state.md R19). -/
def baseShift32 (n : Fin 8) : Nat := 14 - n.val

/-- `x` from TTBCR.T0SZ (10_state.md R28, from general knowledge by 92_eei_decisions.md D21). -/
def baseShift64 (t0sz : Fin 8) : Nat := if t0sz.val ≤ 1 then 5 - t0sz.val else 14 - t0sz.val

/-- `cell[x-1:7] != 0`: a misaligned base under the 32-bit layout (20_memory.md R45). -/
def misaligned32 (cell : DWord) (n : Fin 8) : Bool := cell.extractLsb' 7 (baseShift32 n - 7) != 0

/-- `cell[x-1:3] != 0`: a misaligned base under the 64-bit layout (20_memory.md R48). -/
def misaligned64 (cell : DWord) (t0sz : Fin 8) : Bool := cell.extractLsb' 3 (baseShift64 t0sz - 3) != 0

/-- Why the model gives no translation result (93_implementation_defined.md U4, U5, U6). All safe. -/
inductive WalkRefusal where
  /-- R45. -/
  | misalignedBase32
  /-- R48. -/
  | misalignedBase64
  /-- R54: CnP is 1 on several PEs whose TTBR0s do not point to the same entries. -/
  | cnpPromiseBroken
deriving DecidableEq, Repr

/-- `v` with its bits below `x` replaced by zeros: `v[hi:x] : Zeros(x)`. -/
def clearBelow {w : Nat} (v : BitVec w) (x : Nat) : BitVec w := (v >>> x) <<< x

/-- `TableBase32` with its precondition (20_memory.md R44, R45). -/
def tableBase32 (cell : DWord) (n : Fin 8) : Except WalkRefusal (BitVec 32) :=
  if misaligned32 cell n then .error .misalignedBase32
  else .ok (clearBelow (lowWord cell) (baseShift32 n))

/-- `TableBase64` with its precondition (20_memory.md R46, R48). -/
def tableBase64 (cell : DWord) (t0sz : Fin 8) : Except WalkRefusal (BitVec 48) :=
  if misaligned64 cell t0sz then .error .misalignedBase64
  else .ok (clearBelow (cell.extractLsb' 0 48) (baseShift64 t0sz))

/-- `AddressSizeFault64`: `cell[47:40] != 0` (20_memory.md R47). -/
def addressSizeFault64 (cell : DWord) : Bool := (cell.extractLsb' 40 8 : BitVec 8) != 0

/-- `CurrentASID64` for the selected cell's value (10_state.md R27; polarity of A1 by 92_eei_decisions.md D25). -/
def currentASID64 (a1 : Bool) (ttbr1ASID : BitVec 8) (cell : DWord) : BitVec 8 :=
  if a1 then ttbr1ASID else (fields64 cell).asid

/-- The CnP bit handed to translation: there is one under the 64-bit layout of an implementation that has it
(10_state.md R29, 20_memory.md R54). -/
def cnpBit (c : Config) (layout : Layout) (cell : DWord) : Option Bool :=
  match layout with
  | .bits32 => none
  | .bits64 => if c.cnpImplemented then some ((fields64 cell).cnp == 1) else none

/-- The IMP bit, where it is one: its effect on translation is opaque (10_state.md R23). -/
def impBit (c : Config) (layout : Layout) (cell : DWord) : Option Bool :=
  match layout with
  | .bits32 => if c.impFeatures then some ((fields32 cell).imp == 1) else none
  | .bits64 => none

/-! ### What a walk starts from -/

/-- What TTBR0 hands to a table walk (20_memory.md section 4). -/
structure WalkTable where
  /-- The table's base address: 32 bits under the 32-bit layout, extended by zeros. -/
  base : BitVec 48
  /-- R49. -/
  attrs : Option WalkAttrs
  /-- R27; none under the 32-bit layout, where the spec does not say where the ASID lives (91_not_in_source.md N15, log
  entry 31). -/
  asid : Option (BitVec 8)
  /-- R54. -/
  cnp : Option Bool
  /-- R23. -/
  imp : Option Bool
deriving DecidableEq, Repr

/-- The start of a walk: a table, or the Address size fault before any entry is read (60_exceptions.md R85). -/
inductive WalkStart where
  | table (t : WalkTable)
  | addressSizeFault
deriving DecidableEq, Repr

/-- The start of a walk from a cell value under the 32-bit layout, which has no Address size fault (R85). -/
def walkStart32 (c : Config) (e : Env) (cell : DWord) : Except WalkRefusal WalkStart :=
  match tableBase32 cell e.ttbcrN with
  | .error r => .error r
  | .ok base => .ok (.table
      { base := base.zeroExtend 48, attrs := walkAttrs .bits32 cell, asid := none,
        cnp := cnpBit c .bits32 cell, imp := impBit c .bits32 cell })

/-- The start of a walk from a cell value under the 64-bit layout. `promiseKept` says that the CnP promise of 20_memory.md
R54 holds among the PEs (log entry 22). A refusal comes before the Address size fault, the broken
promise before the misaligned base (log entry 21). -/
def walkStart64 (c : Config) (e : Env) (promiseKept : Bool) (cell : DWord) : Except WalkRefusal WalkStart :=
  if cnpBit c .bits64 cell = some true ∧ promiseKept = false then .error .cnpPromiseBroken
  else
    match tableBase64 cell e.ttbcrT0SZ with
    | .error r => .error r
    | .ok base =>
      if addressSizeFault64 cell then .ok .addressSizeFault
      else .ok (.table
        { base := base, attrs := walkAttrs .bits64 cell, asid := some (currentASID64 e.ttbcrA1 e.ttbr1ASID cell),
          cnp := cnpBit c .bits64 cell, imp := impBit c .bits64 cell })

/-- What a walk that uses a cell value starts from, under the layout TTBCR.EAE selects at the time of the use (R16). -/
def walkStart (c : Config) (e : Env) (promiseKept : Bool) (cell : DWord) : Except WalkRefusal WalkStart :=
  match layoutOf e.ttbcrEAE with
  | .bits32 => walkStart32 c e cell
  | .bits64 => walkStart64 c e promiseKept cell

/-- What a walk for the current Exception level and Security state starts from if it uses the value that the selected
cell holds now (20_memory.md R43). There is none where the register is absent, since then no TTBR0 storage exists
(00_scope.md R2, log entry 30), and none at EL0, where `SelectInstance` gives no cell (log entry 22). At EL2 it is the cell
`SelectInstance` gives, by the last sentence of R43: that an EL2 access is translated by the PL1&0 regime at all the spec
leaves open (DESIGN CHOICE, log entry 29). It takes no address: TTBR0 serves the lower VA range only (R43), where that
range ends is not in the source (91_not_in_source.md N14), and the start given here is that of a walk whose address the
caller takes to lie in it, with translation enabled and the TTBCR fields those of the same Security state (DESIGN CHOICE,
log entry 32). Nothing says that a walk after a write uses the new value (log entry 20). -/
def State.selectedWalkStart (promiseKept : Bool) (s : State) : Option (Except WalkRefusal WalkStart) :=
  if !s.config.el1AArch32Capable then none
  else (selectInstance s.config s.env.el s.env.scrNS).map fun c => walkStart s.config s.env promiseKept (s.cell c)

/-! ### Reserved bits -/

/-- The bits from `lo` up to, and not with, `hi`. -/
def bitRange (lo hi : Nat) : DWord := (BitVec.allOnes 64 <<< lo) &&& ~~~(BitVec.allOnes 64 <<< hi)

/-- The reserved bits of the 32-bit layout (10_state.md R18, R19, R23). -/
def reserved32 (c : Config) (n : Fin 8) : DWord :=
  bitRange 32 64 ||| bitRange 7 (baseShift32 n) ||| (if c.impFeatures then 0 else bitRange 2 3)

/-- The reserved bits of the 64-bit layout (10_state.md R26, R28, R29). -/
def reserved64 (c : Config) (t0sz : Fin 8) : DWord :=
  bitRange 56 64 ||| bitRange 1 (baseShift64 t0sz) ||| (if c.cnpImplemented then 0 else bitRange 0 1)

/-- A value with zeros in every reserved bit of the layout it will be used under (70_reset_and_hazards.md R97 (c)). -/
def portableValue (c : Config) (e : Env) (cell : DWord) : Bool :=
  match layoutOf e.ttbcrEAE with
  | .bits32 => cell &&& reserved32 c e.ttbcrN == 0
  | .bits64 => cell &&& reserved64 c e.ttbcrT0SZ == 0

end Sys2Proof.Machine
end

