-- ==== Sys2Proof/Safety.lean ====
section
/-! DEFINITION. The terms the statements use: what an instruction is by its rule (direction, code, destinations), the
outcome table of 40_system_register_access.md R75, the launch premises of 10_state.md R42, the invariant of a run, and
what a safe run is. -/

namespace Sys2Proof

open Sys2Proof.Machine

/-! ### An instruction by its rule -/

/-- `is_write` (40_system_register_access.md R79). -/
def Instr.direction : Instr → Direction
  | .mrcA32 _ _ => .read
  | .mcrA32 _ _ => .write
  | .mrrcA32 _ _ _ => .read
  | .mcrrA32 _ _ _ => .write
  | .mrcT32 _ => .read
  | .mcrT32 _ => .write
  | .mrrcT32 _ _ => .read
  | .mcrrT32 _ _ => .write

/-- The trap code (60_exceptions.md R84). -/
def Instr.ec : Instr → Nat
  | .mrcA32 _ _ => 0x03
  | .mcrA32 _ _ => 0x03
  | .mrrcA32 _ _ _ => 0x04
  | .mcrrA32 _ _ _ => 0x04
  | .mrcT32 _ => 0x03
  | .mcrT32 _ => 0x03
  | .mrrcT32 _ _ => 0x04
  | .mcrrT32 _ _ => 0x04

/-- The general registers the instruction writes (R71 to R74). -/
def Instr.destinations : Instr → List RegNum
  | .mrcA32 _ t => [t]
  | .mcrA32 _ _ => []
  | .mrrcA32 _ t t2 => [t, t2]
  | .mcrrA32 _ _ _ => []
  | .mrcT32 t => [t]
  | .mcrT32 _ => []
  | .mrrcT32 t t2 => [t, t2]
  | .mcrrT32 _ _ => []

/-- The register numbers the instruction names: Rt, then Rt2 (30_encoding.md R60). -/
def Instr.operands : Instr → List RegNum
  | .mrcA32 _ t => [t]
  | .mcrA32 _ t => [t]
  | .mrrcA32 _ t t2 => [t, t2]
  | .mcrrA32 _ t t2 => [t, t2]
  | .mrcT32 t => [t]
  | .mcrT32 t => [t]
  | .mrrcT32 t t2 => [t, t2]
  | .mcrrT32 t t2 => [t, t2]

/-- The instruction is an MCRR: the only access that writes bits [63:32] of a cell (70_reset_and_hazards.md R101). -/
def Instr.isMcrr : Instr → Bool
  | .mrcA32 _ _ => false
  | .mcrA32 _ _ => false
  | .mrrcA32 _ _ _ => false
  | .mcrrA32 _ _ _ => true
  | .mrcT32 _ => false
  | .mcrT32 _ => false
  | .mrrcT32 _ _ => false
  | .mcrrT32 _ _ => true

/-- The A32 condition field, where there is one. -/
def Instr.cond? : Instr → Option Cond
  | .mrcA32 c _ => some c
  | .mcrA32 c _ => some c
  | .mrrcA32 c _ _ => some c
  | .mcrrA32 c _ _ => some c
  | .mrcT32 _ => none
  | .mcrT32 _ => none
  | .mrrcT32 _ _ => none
  | .mcrrT32 _ _ => none

namespace Machine

/-- The instruction's condition passes: it is AL, or the input ConditionPassed is true (R65). -/
def Passes (i : Instr) (s : State) : Prop := i.cond? = some Cond.al ∨ s.inputs.conditionPassed = true

/-! ### The outcome table of R75 -/

/-- The right columns of R75's table. -/
inductive AccessResult where
  | undefined
  | trapAArch64
  | trapHyp
  | reaches (c : CellName)
deriving DecidableEq, Repr

/-- `ctl64` of R75. -/
def ctl64 (d : Direction) (s : State) : Bool :=
  s.env.hstrEL2T2 || (match d with | .read => s.env.hcrEL2TRVM | .write => s.env.hcrEL2TVM)

/-- `ctl32` of R75. -/
def ctl32 (d : Direction) (s : State) : Bool :=
  s.env.hstrT2 || (match d with | .read => s.env.hcrTRVM | .write => s.env.hcrTVM)

/-- The rows of R75's table, in its order. -/
def accessTable (d : Direction) (s : State) : AccessResult :=
  let single : AccessResult := .reaches (if s.config.haveEL3 && s.config.el3AArch32 then .ttbr0NS else .ttbr0)
  match s.env.el, s.env.scrNS with
  | .el0, _ => .undefined
  | .el1, _ =>
    if s.inputs.el2Enabled && !s.config.el2AArch32 && ctl64 d s then .trapAArch64
    else if s.inputs.el2Enabled && s.config.el2AArch32 && ctl32 d s then .trapHyp
    else single
  | .el2, _ => single
  | .el3, false =>
    match d, s.inputs.cp15sdisable with
    | .write, .high => .undefined
    | .write, .notHigh => .reaches .ttbr0S
    | .read, _ => .reaches .ttbr0S
  | .el3, true => .reaches .ttbr0NS

/-- The register is present and an access in the given direction reaches the cell `c` (R65 (2), R75). -/
def Reaches (d : Direction) (s : State) (c : CellName) : Prop :=
  s.config.el1AArch32Capable = true ∧ accessTable d s = .reaches c

/-! ### Premises and the invariant of a run -/

/-- The launch premises (a) to (c) of 10_state.md R42: no check of the step (92_eei_decisions.md D8). -/
def LaunchOk (s : State) : Prop :=
  (s.env.el = .el3 → s.config.haveEL3 = true ∧ s.config.el3AArch32 = true) ∧
  (s.env.el = .el2 → s.config.haveEL2 = true ∧ s.config.el2AArch32 = true) ∧
  (s.env.el = .el1 → s.config.el1AArch32Capable = true)

/-- What every step keeps: the program text is in canonical form, pc is a multiple of 4 (20_memory.md R53) and the launch
premises hold. -/
structure Inv (s : State) : Prop where
  textCanonical : Memory.wf s.mem = true
  pcAligned : s.pc.toNat % 4 = 0
  launch : LaunchOk s

/-- A run of at most `n` steps is safe: it has not ended in an exceptional outcome or in a refusal; it may have ended
normally (R104). -/
def SafeFor (n : Nat) (s : State) : Prop :=
  match runEnd n s with
  | .fault _ _ => False
  | .refusal _ _ => False
  | .normal _ => True
  | .running _ => True

/-- Every run from the state is safe. -/
def Safe (s : State) : Prop := ∀ n, SafeFor n s

/-! ### Comparing runs -/

/-- Change the state of a next outcome. -/
def mapNext (f : State → State) : Outcome → Outcome
  | .next s => .next (f s)
  | .fault r => .fault r
  | .refused r => .refused r

/-- Change the state a run stands in. -/
def RunEnd.map (f : State → State) : RunEnd → RunEnd
  | .normal s => .normal (f s)
  | .fault r s => .fault r (f s)
  | .refusal r s => .refusal r (f s)
  | .running s => .running (f s)

/-- The state with another value in a cell: `setCell` under the name statements that compare two runs use. -/
def State.withCell (c : CellName) (v : DWord) (s : State) : State := s.setCell c v

/-- The state with another environment record. -/
def State.withEnv (e : Env) (s : State) : State := { s with env := e }

/-- The state with another configuration. -/
def State.withConfig (c : Config) (s : State) : State := { s with config := c }

/-- The state with another level of the CP15SDISABLE signal. -/
def State.withSignal (g : Signal) (s : State) : State := { s with inputs := { s.inputs with cp15sdisable := g } }

end Machine

end Sys2Proof
end

