-- ==== Sys2Proof/Certificates/Slice0/Obligations.lean ====
section
/-! DEFINITION. The statements for the provers. Each docstring names the rule or section of spec/ it rests on; a clause
that rests on a choice of the model or of the spec names the log entry. -/

open Sys2Proof Sys2Proof.Machine

/-! ### Encoding -/

/-- Laying out a well-formed instruction's word as bytes and decoding them gives the instruction and the bytes after it,
in both instruction sets and both byte orders (30_encoding.md sections 2 and 3; byte order by log entry 8). -/
def Obligations.DecodeInvertsEncode : Prop :=
  ∀ (i : Instr) (bigEndian : Bool) (rest : List Byte), i.WellFormed →
    decodeBytes i.iset bigEndian (layBytes i.iset bigEndian (encode i) ++ rest) = .ok (i, rest)

/-- A word that decodes is the word of what it decodes to: no bit of it is dropped and the decoder answers only
well-formed instructions of the set it decodes (30_encoding.md sections 2 and 3). -/
def Obligations.EncodeInvertsDecode : Prop :=
  ∀ (iset : InstrSet) (w : Word) (i : Instr), decodeWord iset w = .ok i →
    i.iset = iset ∧ i.WellFormed ∧ encode i = w

/-- The decoder answers an instruction exactly when the word matches a row of the table for its set and, in A32, its
condition is not 0b1111; no word matches two rows of one set (30_encoding.md section 3). -/
def Obligations.DecodeAnswersExactlyOnTableRows : Prop :=
  ∀ (iset : InstrSet) (w : Word),
    ((∃ i, decodeWord iset w = .ok i) ↔
      (iset = .a32 → w.extractLsb' 28 4 ≠ 0b1111#4) ∧ ∃ r ∈ rowsOf iset, w &&& r.mask = r.value) ∧
    (∀ r ∈ rowsOf iset, ∀ r' ∈ rowsOf iset, w &&& r.mask = r.value → w &&& r'.mask = r'.value → r = r')

/-- Words of 95_test_vectors.md section 4, one of each access in each set and one out of scope. -/
def Obligations.DecodesWordsOfTheTestVectors : Prop :=
  decodeWord .a32 0xEE12EF10 = .ok (.mrcA32 .al 14) ∧
  decodeWord .a32 0xEE020F10 = .ok (.mcrA32 .al 0) ∧
  decodeWord .a32 0xEC5E0F02 = .ok (.mrrcA32 .al 0 14) ∧
  decodeWord .a32 0xEC454F02 = .ok (.mcrrA32 .al 4 5) ∧
  decodeWord .a32 0x1E123F10 = .ok (.mrcA32 0b0001 3) ∧
  decodeWord .t32 0xEE120F10 = .ok (.mrcT32 0) ∧
  decodeWord .t32 0xEE027F10 = .ok (.mcrT32 7) ∧
  decodeWord .t32 0xEC532F02 = .ok (.mrrcT32 2 3) ∧
  decodeWord .t32 0xEC454F02 = .ok (.mcrrT32 4 5) ∧
  decodeWord .a32 0xFE120F10 = .error (.notInScope .a32 0xFE120F10)

/-! ### The step -/

/-- When the text at pc decodes to a well-formed instruction, step is exec of it, and a next state then takes the inputs of
the next step, the head of laterInputs where there is one (the model's own, log entry 6). A stop is exec's stop. -/
def Obligations.StepRunsTheDecodedInstruction : Prop :=
  ∀ (s : State) (i : Instr) (rest : List Byte),
    decodeBytes s.env.iset s.config.ifetchBigEndian (Memory.run s.mem s.pc 4) = .ok (i, rest) → i.WellFormed →
    (∀ t, exec i s = .next t →
      step s = .next { t with inputs := t.laterInputs.headD t.inputs, laterInputs := t.laterInputs.tail }) ∧
    (∀ f, exec i s = .fault f → step s = .fault f) ∧
    (∀ r, exec i s = .refused r → step s = .refused r)

/-- Where no byte stands at pc, the run has ended (70_reset_and_hazards.md section 4, log entry 7); text that is no
instruction of the spec is refused by the decoder's reason (30_encoding.md section 3). -/
def Obligations.StepStopsWhereNoInstructionStands : Prop :=
  ∀ s : State,
    (Memory.read s.mem s.pc.toNat = none → step s = .refused .endOfProgram) ∧
    (∀ b r, Memory.read s.mem s.pc.toNat = some b →
      decodeBytes s.env.iset s.config.ifetchBigEndian (Memory.run s.mem s.pc 4) = .error r →
      step s = .refused (.rejected r))

/-- An instruction of the current set, stored by withFetchWord, is the one the next step runs; the store changes the four
bytes at pc (modulo 2^32) and nothing else (log entry 7). -/
def Obligations.PlacedInstructionIsTheNextToRun : Prop :=
  ∀ (s : State) (i : Instr), i.WellFormed → i.iset = s.env.iset →
    let p := s.withFetchWord 32 (encode i).toNat
    step p = afterExec (exec i p) ∧
    (∀ a : Nat, (∀ k : Nat, k < 4 → a ≠ (s.pc.toNat + k) % 2 ^ 32) → Memory.read p.mem a = Memory.read s.mem a) ∧
    { p with mem := s.mem } = s

/-! ### What the four accesses do -/

/-- MRC completes with x[t] holding bits [31:0] of the cell it reaches, and pc + 4: nothing else changes. Rows A32 and T32
(40_system_register_access.md section 2; pc by 92_eei_decisions.md D6). -/
def Obligations.MrcReadsTheLowWord : Prop :=
  ∀ (q : Cond) (t : RegNum) (s : State) (c : CellName), t ≠ 15 → Reaches .read s c →
    let after : State := { s with regs := s.regs.set t ((s.cell c).extractLsb' 0 32), pc := s.pc + 4 }
    (Passes (.mrcA32 q t) s → exec (.mrcA32 q t) s = .next after) ∧
    (Passes (.mrcT32 t) s → exec (.mrcT32 t) s = .next after)

/-- MCR completes with bits [31:0] of the cell it reaches holding x[t], bits [63:32] as they were, and pc + 4: nothing else
changes. Rows A32 and T32 (40_system_register_access.md section 2; pc by 92_eei_decisions.md D6). -/
def Obligations.McrWritesTheLowWord : Prop :=
  ∀ (q : Cond) (t : RegNum) (s : State) (c : CellName), t ≠ 15 → Reaches .write s c →
    let v : DWord := (s.cell c).extractLsb' 32 32 ++ s.regs[t]
    let after : State := { s.withCell c v with pc := s.pc + 4 }
    (Passes (.mcrA32 q t) s → exec (.mcrA32 q t) s = .next after) ∧
    (Passes (.mcrT32 t) s → exec (.mcrT32 t) s = .next after)

/-- MRRC completes with x[t] holding bits [31:0] of the cell it reaches and x[t2] bits [63:32], bits [63:56] reading as
zero where the implementation reads them so (10_state.md section 5, log entry 14), and pc + 4: nothing else changes. Rows
A32 and T32 (40_system_register_access.md section 2; pc by 92_eei_decisions.md D6). -/
def Obligations.MrrcReadsBothWords : Prop :=
  ∀ (q : Cond) (t t2 : RegNum) (s : State) (c : CellName), t ≠ 15 → t2 ≠ 15 → t ≠ t2 → Reaches .read s c →
    let hi : Word := match s.config.res0TopBehaviour with
      | .readAsWritten => (s.cell c).extractLsb' 32 32
      | .readsZero => (s.cell c).extractLsb' 32 32 &&& 0x00FFFFFF
    let after : State :=
      { s with regs := (s.regs.set t2 hi).set t ((s.cell c).extractLsb' 0 32), pc := s.pc + 4 }
    (Passes (.mrrcA32 q t t2) s → exec (.mrrcA32 q t t2) s = .next after) ∧
    (Passes (.mrrcT32 t t2) s → exec (.mrrcT32 t t2) s = .next after)

/-- MCRR completes with the cell it reaches holding x[t2] : x[t], also where t = t2, and pc + 4: nothing else changes. Rows
A32 and T32 (40_system_register_access.md section 2; pc by 92_eei_decisions.md D6). -/
def Obligations.McrrWritesBothWords : Prop :=
  ∀ (q : Cond) (t t2 : RegNum) (s : State) (c : CellName), t ≠ 15 → t2 ≠ 15 → Reaches .write s c →
    let after : State := { s.withCell c (s.regs[t2] ++ s.regs[t]) with pc := s.pc + 4 }
    (Passes (.mcrrA32 q t t2) s → exec (.mcrrA32 q t t2) s = .next after) ∧
    (Passes (.mcrrT32 t t2) s → exec (.mcrrT32 t t2) s = .next after)

/-- Every admitted access whose condition passes, on a machine that has the register, ends as the table of
40_system_register_access.md section 3 says: Undefined, the trap with the access's code, or a next state. -/
def Obligations.OutcomeByExceptionLevel : Prop :=
  ∀ (i : Instr) (s : State), i.admitted = true → Passes i s → s.config.el1AArch32Capable = true →
    match accessTable i.direction s with
    | .undefined => exec i s = .fault .undefined
    | .trapAArch64 => exec i s = .fault (.aarch64SystemAccessTrap .el2 i.ec)
    | .trapHyp => exec i s = .fault (.hypTrap i.ec)
    | .reaches c => selectInstance s.config s.env.el s.env.scrNS = some c ∧ ∃ t, exec i s = .next t

/-- The skeleton the meanings are built from agrees with the pseudocode printed for each access, for the A32 form with
condition AL and for the T32 form whose condition passes (40_system_register_access.md section 3; bits [63:56] read as
written). -/
def Obligations.AccessesAgreeWithTheirPseudocode : Prop :=
  ∀ (t t2 : RegNum) (s : State), t ≠ 15 → t2 ≠ 15 → s.config.el1AArch32Capable = true →
    s.config.res0TopBehaviour = .readAsWritten →
    (exec (.mrcA32 .al t) s = mrcPseudocode t s ∧
     exec (.mcrA32 .al t) s = mcrPseudocode t s ∧
     (t ≠ t2 → exec (.mrrcA32 .al t t2) s = mrrcPseudocode t t2 s) ∧
     exec (.mcrrA32 .al t t2) s = mcrrPseudocode t t2 s) ∧
    (s.inputs.conditionPassed = true →
     exec (.mrcT32 t) s = mrcPseudocode t s ∧
     exec (.mcrT32 t) s = mcrPseudocode t s ∧
     (t ≠ t2 → exec (.mrrcT32 t t2) s = mrrcPseudocode t t2 s) ∧
     exec (.mcrrT32 t t2) s = mcrrPseudocode t t2 s)

/-- At EL1 the four trap tests of R66 run in their order and decide the outcome; where none holds the access goes on. At
every other level no trap is raised. -/
def Obligations.TrapChainRunsAtEl1Only : Prop :=
  ∀ (i : Instr) (s : State), i.admitted = true → Passes i s → s.config.el1AArch32Capable = true →
    let t64 : Bool := match i.direction with | .read => s.env.hcrEL2TRVM | .write => s.env.hcrEL2TVM
    let t32 : Bool := match i.direction with | .read => s.env.hcrTRVM | .write => s.env.hcrTVM
    (s.env.el = .el1 →
      if s.inputs.el2Enabled && !s.config.el2AArch32 && s.env.hstrEL2T2 then
        exec i s = .fault (.aarch64SystemAccessTrap .el2 i.ec)
      else if s.inputs.el2Enabled && s.config.el2AArch32 && s.env.hstrT2 then exec i s = .fault (.hypTrap i.ec)
      else if s.inputs.el2Enabled && !s.config.el2AArch32 && t64 then
        exec i s = .fault (.aarch64SystemAccessTrap .el2 i.ec)
      else if s.inputs.el2Enabled && s.config.el2AArch32 && t32 then exec i s = .fault (.hypTrap i.ec)
      else ∃ t, exec i s = .next t) ∧
    (s.env.el ≠ .el1 → ∀ ec target, exec i s ≠ .fault (.hypTrap ec) ∧
      exec i s ≠ .fault (.aarch64SystemAccessTrap target ec))

/-- A write at EL3 with SCR.NS = 0 while CP15SDISABLE is high is Undefined. Everywhere else the level of the signal has no
effect: no read, no write at EL3 with SCR.NS = 1 and no access at another level depends on it
(40_system_register_access.md section 1). That a run which makes the disabled write ends in the state before it, with
TTBR0_S unchanged, rests on the outcome being terminal (60_exceptions.md section 3, 92_eei_decisions.md D4, log entry 10). -/
def Obligations.Cp15sdisableDisablesSecureWritesOnly : Prop :=
  ∀ (i : Instr) (s : State), i.admitted = true → Passes i s → s.config.el1AArch32Capable = true →
    (i.direction = .write → s.env.el = .el3 → s.env.scrNS = false → s.inputs.cp15sdisable = .high →
      exec i s = .fault .undefined ∧ (fetch s = .ok i → ∀ n, runEnd (n + 1) s = .fault .undefined s)) ∧
    (i.direction = .write → s.env.el = .el3 → s.env.scrNS = false → s.inputs.cp15sdisable = .notHigh →
      ∃ t, exec i s = .next t) ∧
    (i.direction = .read ∨ s.env.el ≠ .el3 ∨ s.env.scrNS = true →
      ∀ g, exec i (s.withSignal g) = mapNext (State.withSignal g) (exec i s))

/-- R81: the causes of Undefined, all of them: EL0, EL1 not capable of AArch32, and a write at EL3 with SCR.NS = 0 while
CP15SDISABLE is high. For an access whose condition passes. -/
def Obligations.UndefinedHasExactlyThreeCauses : Prop :=
  ∀ (i : Instr) (s : State), i.admitted = true → Passes i s →
    (exec i s = .fault .undefined ↔
      s.env.el = .el0 ∨ s.config.el1AArch32Capable = false ∨
      (i.direction = .write ∧ s.env.el = .el3 ∧ s.env.scrNS = false ∧ s.inputs.cp15sdisable = .high))

/-- R82, R83, R84: when each trap is raised, to which level and with which code. For an access whose condition passes, on a
machine that has the register; no instruction raises one otherwise. -/
def Obligations.TrapsAreRaisedExactlyUnderTheirControls : Prop :=
  ∀ (i : Instr) (s : State) (ec : Nat) (target : EL),
    let when32 : Prop := s.env.el = .el1 ∧ s.inputs.el2Enabled = true ∧ s.config.el2AArch32 = true ∧
      (s.env.hstrT2 = true ∨ (i.direction = .read ∧ s.env.hcrTRVM = true) ∨
        (i.direction = .write ∧ s.env.hcrTVM = true))
    let when64 : Prop := s.env.el = .el1 ∧ s.inputs.el2Enabled = true ∧ s.config.el2AArch32 = false ∧
      (s.env.hstrEL2T2 = true ∨ (i.direction = .read ∧ s.env.hcrEL2TRVM = true) ∨
        (i.direction = .write ∧ s.env.hcrEL2TVM = true))
    (exec i s = .fault (.hypTrap ec) → when32 ∧ ec = i.ec) ∧
    (exec i s = .fault (.aarch64SystemAccessTrap target ec) → when64 ∧ target = .el2 ∧ ec = i.ec) ∧
    (i.admitted = true → Passes i s → s.config.el1AArch32Capable = true →
      (when32 → exec i s = .fault (.hypTrap i.ec)) ∧
      (when64 → exec i s = .fault (.aarch64SystemAccessTrap .el2 i.ec)))

/-- At EL2 every admitted access answers a next state, whatever the trap controls, the signal and the condition are: it
completes where its condition passes (40_system_register_access.md section 3), and where the condition fails it is skipped
(section 1 of that file, 92_eei_decisions.md D7, log entry 12). -/
def Obligations.AccessAtEl2AlwaysCompletes : Prop :=
  ∀ (i : Instr) (s : State), i.admitted = true → s.env.el = .el2 → s.config.el1AArch32Capable = true →
    ∃ t, exec i s = .next t

/-- An admitted access whose condition passes is Undefined at EL0, whatever the trap controls are, and at every level where
the register is absent (60_exceptions.md sections 1 and 2, 00_scope.md section 2); in both cases the same access whose
condition fails is refused, since it would raise (40_system_register_access.md section 1, 92_eei_decisions.md D7, log entries
11 and 12). -/
def Obligations.AccessAtEl0OrWithoutTheRegisterIsUndefined : Prop :=
  ∀ (i : Instr) (s : State), i.admitted = true → s.env.el = .el0 ∨ s.config.el1AArch32Capable = false →
    (Passes i s → exec i s = .fault .undefined) ∧
    (¬ Passes i s → exec i s = .refused .conditionFailedWouldRaise)

/-- A condition that fails: the access only advances pc where the same access with the condition passed would reach a cell,
and is refused where it would raise, for want of the register too (40_system_register_access.md section 1,
92_eei_decisions.md D7, 93_implementation_defined.md part 1, log entries 11 and 12). -/
def Obligations.FailedConditionSkipsOrIsRefused : Prop :=
  ∀ (i : Instr) (s : State), i.admitted = true → ¬ Passes i s →
    (∀ c, Reaches i.direction s c → exec i s = .next { s with pc := s.pc + 4 }) ∧
    ((∀ c, ¬ Reaches i.direction s c) → exec i s = .refused .conditionFailedWouldRaise)

/-- The forms 30_encoding.md section 4 refuses, by name and before every other test: register 15, and MRRC with one
register twice (the spec's choice, 92_eei_decisions.md D5). No other form is refused for its registers. -/
def Obligations.RefusedFormsAreRegister15AndMrrcTwice : Prop :=
  ∀ (i : Instr) (s : State),
    (15 ∈ i.operands ↔ exec i s = .refused .registerFifteen) ∧
    (exec i s = .refused .mrrcSameRegister ↔
      ∃ t : RegNum, t ≠ 15 ∧ ((∃ q, i = .mrrcA32 q t t) ∨ i = .mrrcT32 t t))

/-- An admitted access ends in one of the outcomes of 60_exceptions.md section 1 with its own code, or in the refusal of a
failed condition; it never answers that it is not modelled. -/
def Obligations.AdmittedAccessHasANamedOutcome : Prop :=
  ∀ (i : Instr) (s : State), i.admitted = true →
    (∃ t, exec i s = .next t) ∨ exec i s = .fault .undefined ∨ exec i s = .fault (.hypTrap i.ec) ∨
    exec i s = .fault (.aarch64SystemAccessTrap .el2 i.ec) ∨ exec i s = .refused .conditionFailedWouldRaise

/-! ### Frames -/

/-- What MRC and MRRC (A32 and T32) leave unchanged when they give a next state: every cell, every register but the
destinations, every byte of memory, the parameters, the environment and the inputs; pc moves by 4 (10_state.md section 7,
40_system_register_access.md section 1; that x[15] is no pc, so stays while pc moves, is the model's choice, log entry
24). -/
def Obligations.ReadAccessFrame : Prop :=
  ∀ (i : Instr) (s t : State), i.direction = .read → exec i s = .next t →
    (∀ c, t.cell c = s.cell c) ∧ (∀ r : RegNum, r ∉ i.destinations → t.reg r = s.reg r) ∧ t.pc = s.pc + 4 ∧
    (∀ a, Memory.read t.mem a = Memory.read s.mem a) ∧
    t.config = s.config ∧ t.env = s.env ∧ t.inputs = s.inputs ∧ t.laterInputs = s.laterInputs

/-- What MCR and MCRR (A32 and T32) leave unchanged when they give a next state: every register, every cell but the one
SelectInstance gives, bits [63:32] of that one too for MCR, every byte of memory, the parameters, the environment and the
inputs; pc moves by 4 (10_state.md section 7, 40_system_register_access.md section 1; that x[15] is no pc, so stays while
pc moves, is the model's choice, log entry 24). -/
def Obligations.WriteAccessFrame : Prop :=
  ∀ (i : Instr) (s t : State), i.direction = .write → exec i s = .next t →
    (∀ r : RegNum, t.reg r = s.reg r) ∧ t.pc = s.pc + 4 ∧
    (∀ c, selectInstance s.config s.env.el s.env.scrNS ≠ some c → t.cell c = s.cell c) ∧
    (∀ c, i.isMcrr = false → (t.cell c).extractLsb' 32 32 = (s.cell c).extractLsb' 32 32) ∧
    (∀ a, Memory.read t.mem a = Memory.read s.mem a) ∧
    t.config = s.config ∧ t.env = s.env ∧ t.inputs = s.inputs ∧ t.laterInputs = s.laterInputs

/-- R15: a 32-bit access reads and writes bits [31:0] of the cell and does not modify bits [63:32], whichever layout is in
use; the 64-bit accesses move all 64 bits (for MRRC where bits [63:56] read as written, 10_state.md R30). -/
def Obligations.AccessWidthsAre32And64Bits : Prop :=
  ∀ (q : Cond) (t t2 : RegNum) (s : State) (c : CellName), t ≠ 15 → t2 ≠ 15 →
    (Reaches .read s c → ∀ i ∈ [Instr.mrcA32 q t, Instr.mrcT32 t], Passes i s → ∃ u, exec i s = .next u ∧
      u.reg t = (s.cell c).extractLsb' 0 32 ∧ ∀ c', u.cell c' = s.cell c') ∧
    (Reaches .write s c → ∀ i ∈ [Instr.mcrA32 q t, Instr.mcrT32 t], Passes i s → ∃ u, exec i s = .next u ∧
      (u.cell c).extractLsb' 0 32 = s.reg t ∧ (u.cell c).extractLsb' 32 32 = (s.cell c).extractLsb' 32 32) ∧
    (t ≠ t2 → s.config.res0TopBehaviour = .readAsWritten → Reaches .read s c →
      ∀ i ∈ [Instr.mrrcA32 q t t2, Instr.mrrcT32 t t2], Passes i s → ∃ u, exec i s = .next u ∧
        u.reg t2 ++ u.reg t = s.cell c ∧ ∀ c', u.cell c' = s.cell c') ∧
    (Reaches .write s c → ∀ i ∈ [Instr.mcrrA32 q t t2, Instr.mcrrT32 t t2], Passes i s → ∃ u, exec i s = .next u ∧
      u.cell c = s.reg t2 ++ s.reg t)

/-- R32: SCR.NS is read only at EL3, where 0 selects TTBR0_S and 1 selects TTBR0_NS: below EL3 no outcome depends on it, and
at EL3 a cell that is not the selected one is neither read nor written, while MRC reads the selected one and MCR writes it
(unless R68 disables the write). -/
def Obligations.ScrNsSelectsTheCellAtEl3Only : Prop :=
  ∀ (i : Instr) (s : State),
    (s.env.el ≠ .el3 → ∀ b, let e : Env := { s.env with scrNS := b }
      exec i (s.withEnv e) = mapNext (State.withEnv e) (exec i s)) ∧
    (s.env.el = .el3 → let sel := if s.env.scrNS then CellName.ttbr0NS else CellName.ttbr0S
      (∀ c v, c ≠ sel → exec i (s.withCell c v) = mapNext (State.withCell c v) (exec i s)) ∧
      (∀ (q : Cond) (t : RegNum), t ≠ 15 → s.config.el1AArch32Capable = true →
        (Passes (.mrcA32 q t) s → ∃ u, exec (.mrcA32 q t) s = .next u ∧ u.reg t = (s.cell sel).extractLsb' 0 32) ∧
        (Passes (.mcrA32 q t) s → ¬ (s.env.scrNS = false ∧ s.inputs.cp15sdisable = .high) →
          ∃ u, exec (.mcrA32 q t) s = .next u ∧ (u.cell sel).extractLsb' 0 32 = s.reg t)))

/-! ### Two accesses -/

/-- A value written is the value read back by the same PE, where both accesses complete on the same cell: MCRR then MRRC,
MCRR then MRC, MCR then MRRC (40_system_register_access.md section 3; A32 forms with condition AL; bits [63:56] read as
zero where the implementation reads them so, log entry 14). -/
def Obligations.WrittenValueIsReadBack : Prop :=
  ∀ (t t2 a b : RegNum) (s : State) (c : CellName), t ≠ 15 → t2 ≠ 15 → a ≠ 15 → b ≠ 15 → a ≠ b →
    Reaches .write s c → Reaches .read s c →
    let seen (w : Word) : Word := match s.config.res0TopBehaviour with
      | .readAsWritten => w
      | .readsZero => w &&& 0x00FFFFFF
    (∃ u v, exec (.mcrrA32 .al t t2) s = .next u ∧ exec (.mrrcA32 .al a b) u = .next v ∧
      v.reg a = s.reg t ∧ v.reg b = seen (s.reg t2)) ∧
    (∃ u v, exec (.mcrrA32 .al t t2) s = .next u ∧ exec (.mrcA32 .al a) u = .next v ∧ v.reg a = s.reg t) ∧
    (∃ u v, exec (.mcrA32 .al t) s = .next u ∧ exec (.mrrcA32 .al a b) u = .next v ∧
      v.reg a = s.reg t ∧ v.reg b = seen ((s.cell c).extractLsb' 32 32))

/-- Reading a cell and writing the same registers back leaves the cell as it was: MRC then MCR always, MRRC then MCRR where
bits [63:56] read as written (40_system_register_access.md section 3; A32 forms with condition AL). -/
def Obligations.ReadThenWriteBackKeepsTheCell : Prop :=
  ∀ (t t2 : RegNum) (s : State) (c : CellName), t ≠ 15 → t2 ≠ 15 → t ≠ t2 → Reaches .write s c → Reaches .read s c →
    (∃ u v, exec (.mrcA32 .al t) s = .next u ∧ exec (.mcrA32 .al t) u = .next v ∧
      (∀ c', v.cell c' = s.cell c') ∧ ∀ r : RegNum, v.reg r = u.reg r) ∧
    (s.config.res0TopBehaviour = .readAsWritten →
      ∃ u v, exec (.mrrcA32 .al t t2) s = .next u ∧ exec (.mcrrA32 .al t t2) u = .next v ∧
        (∀ c', v.cell c' = s.cell c') ∧ ∀ r : RegNum, v.reg r = u.reg r)

/-! ### The whole machine -/

/-- Every step keeps the invariant: canonical program text, pc a multiple of 4, the launch premises (10_state.md sections 7
and 10, 20_memory.md section 3; the canonical form is the model's own, log entry 7). -/
def Obligations.StepKeepsTheRunInvariant : Prop :=
  ∀ s t : State, Inv s → step s = .next t → Inv t

/-- The invariant holds right after reset, whatever the cells draw (log entries 1 to 4 and 7 choose the values). -/
def Obligations.RunInvariantHoldsAtReset : Prop :=
  Inv State.reset ∧ ∀ d dS dNS : DWord, Inv (State.resetDraw d dS dNS)

/-- A run changes general registers 0 to 14, the three cells, pc and the inputs, and nothing else: the parameters, the
environment, the program text and x[15] stay, and after k steps pc has moved by 4 * k and k inputs have been taken
(40_system_register_access.md section 4, 10_state.md sections 6 and 7; the list of inputs is the model's own, log entry 6).
That x[15] stays while pc moves is the model's choice: x[15] is a register apart from pc (log entry 24). -/
def Obligations.RunChangesOnlyRegistersCellsAndPc : Prop :=
  ∀ (n : Nat) (s : State), let e := (runEnd n s).state
    e.config = s.config ∧ e.env = s.env ∧ e.mem = s.mem ∧ e.reg 15 = s.reg 15 ∧
    ∃ k, k ≤ n ∧ e.pc = s.pc + BitVec.ofNat 32 (4 * k) ∧ e.laterInputs = s.laterInputs.drop k ∧
      ((runEnd n s = .running e) → k = n)

/-- A run that stops stands in the state before the step that stopped it: an exceptional outcome has written nothing, and pc
is the address of the access (60_exceptions.md section 3, 40_system_register_access.md section 1, log entry 10). That a run
ends normally where no byte stands at pc is the model's choice (log entry 7). -/
def Obligations.StoppedRunStandsBeforeItsLastStep : Prop :=
  ∀ (n : Nat) (s t : State),
    (∀ f, runEnd n s = .fault f t →
      (∃ i, fetch t = .ok i ∧ exec i t = .fault f) ∧ ∃ k, k < n ∧ runEnd k s = .running t) ∧
    (runEnd n s = .normal t → Memory.read t.mem t.pc.toNat = none ∧ ∃ k, k < n ∧ runEnd k s = .running t) ∧
    (∀ r, runEnd n s = .refusal r t →
      step t = .refused r ∧ r ≠ .endOfProgram ∧ ∃ k, k < n ∧ runEnd k s = .running t)

/-- At EL2 a run over text of admitted accesses is safe: if at each of the first n addresses from pc, four apart, there is
either no text or an admitted instruction, a run of n steps ends in no fault and in no refusal
(40_system_register_access.md section 3, 60_exceptions.md section 4). That no text at pc is a normal end is the model's
choice (log entry 7); an access whose condition fails is skipped there, not refused (40_system_register_access.md section 1,
92_eei_decisions.md D7, log entry 12). -/
def Obligations.AdmittedTextAtEl2RunsSafely : Prop :=
  ∀ (n : Nat) (s : State), s.env.el = .el2 → s.config.el1AArch32Capable = true →
    (∀ k, k < n → let p : State := { s with pc := s.pc + BitVec.ofNat 32 (4 * k) }
      fetch p = .error .endOfProgram ∨ ∃ i, fetch p = .ok i ∧ i.admitted = true) →
    SafeFor n s

/-- Bits [63:32] of a cell change in a step only if the step ran an MCRR (70_reset_and_hazards.md section 3). -/
def Obligations.OnlyMcrrChangesBits63To32 : Prop :=
  ∀ (s t : State) (c : CellName), step s = .next t →
    (t.cell c).extractLsb' 32 32 ≠ (s.cell c).extractLsb' 32 32 →
    ∃ i, fetch s = .ok i ∧ i.isMcrr = true ∧ selectInstance s.config s.env.el s.env.scrNS = some c

/-- Below EL3 a run neither learns nor changes the Secure cell: two runs that differ only in TTBR0_S go the same way and
keep the difference (60_exceptions.md section 5, 10_state.md section 1). -/
def Obligations.SecureCellIsHiddenBelowEl3 : Prop :=
  ∀ (n : Nat) (s : State) (v : DWord), s.env.el ≠ .el3 →
    runEnd n (s.withCell .ttbr0S v) = (runEnd n s).map (State.withCell .ttbr0S v)

/-- Under the launch premises, a configuration whose EL3 is AArch32 never reaches the cell TTBR0, and any other reaches
neither TTBR0_S nor TTBR0_NS: runs neither read nor write it (10_state.md section 1). -/
def Obligations.UnreachableCellsAreNeitherReadNorWritten : Prop :=
  ∀ (n : Nat) (s : State) (v : DWord), LaunchOk s →
    (s.config.haveEL3 = true ∧ s.config.el3AArch32 = true →
      runEnd n (s.withCell .ttbr0 v) = (runEnd n s).map (State.withCell .ttbr0 v)) ∧
    (¬ (s.config.haveEL3 = true ∧ s.config.el3AArch32 = true) →
      runEnd n (s.withCell .ttbr0S v) = (runEnd n s).map (State.withCell .ttbr0S v) ∧
      runEnd n (s.withCell .ttbr0NS v) = (runEnd n s).map (State.withCell .ttbr0NS v))

/-- No run reads TTBCR or TTBR1.ASID: the same bits move whichever layout is selected (40_system_register_access.md
section 3). -/
def Obligations.RunsDoNotReadTtbcr : Prop :=
  ∀ (n : Nat) (s : State) (eae a1 : Bool) (k t0sz : Fin 8) (asid : BitVec 8),
    let e : Env := { s.env with ttbcrEAE := eae, ttbcrN := k, ttbcrT0SZ := t0sz, ttbcrA1 := a1, ttbr1ASID := asid }
    runEnd n (s.withEnv e) = (runEnd n s).map (State.withEnv e)

/-- An access reads a trap control only at EL1 while EL2 is enabled, only those of the state EL2 uses, and of TVM and TRVM
only its own direction's: any other change of the controls leaves its outcome as it was (40_system_register_access.md
section 3). -/
def Obligations.TrapControlsReadOnlyWhereTheyApply : Prop :=
  ∀ (i : Instr) (s : State) (e : Env), e.el = s.env.el → e.scrNS = s.env.scrNS →
    (s.env.el = .el1 → s.inputs.el2Enabled = true → s.config.el2AArch32 = true →
      e.hstrT2 = s.env.hstrT2 ∧ (i.direction = .read → e.hcrTRVM = s.env.hcrTRVM) ∧
        (i.direction = .write → e.hcrTVM = s.env.hcrTVM)) →
    (s.env.el = .el1 → s.inputs.el2Enabled = true → s.config.el2AArch32 = false →
      e.hstrEL2T2 = s.env.hstrEL2T2 ∧ (i.direction = .read → e.hcrEL2TRVM = s.env.hcrEL2TRVM) ∧
        (i.direction = .write → e.hcrEL2TVM = s.env.hcrEL2TVM)) →
    exec i (s.withEnv e) = mapNext (State.withEnv e) (exec i s)

/-! ### What the value says to a table walk -/

/-- The walk attributes from the register's bits (20_memory.md R49): IRGN is bit 0 above bit 6, RGN is bits [4:3], S is bit
1, NOS is bit 5 and counts only where S is 1; under the 64-bit layout TTBR0 gives none. -/
def Obligations.WalkAttributesFollowTheBits : Prop :=
  ∀ cell : DWord,
    let code (hi lo : Bool) : Cacheability := match hi, lo with
      | false, false => .nonCacheable
      | false, true => .writeBackWriteAllocate
      | true, false => .writeThrough
      | true, true => .writeBackNoWriteAllocate
    walkAttrs .bits32 cell = some
      { inner := code (cell.getLsbD 0) (cell.getLsbD 6)
        outer := code (cell.getLsbD 4) (cell.getLsbD 3)
        shareability :=
          if cell.getLsbD 1 = false then .nonShareable
          else if cell.getLsbD 5 = false then .outerShareable
          else .innerShareable } ∧
    walkAttrs .bits64 cell = none

/-- The fields of each layout are the whole cell: taking a cell apart and putting it together gives it back, and the other
way round (10_state.md sections 3 and 4; the split of [63:48] is log entry 19). -/
def Obligations.FieldsOfEachLayoutAreTheWholeCell : Prop :=
  (∀ cell : DWord, (fields32 cell).pack = cell ∧ (fields64 cell).pack = cell) ∧
  (∀ f : Fields32, fields32 f.pack = f) ∧ (∀ f : Fields64, fields64 f.pack = f)

/-- TableBase32: bits [31:x] of the cell above x zeros, x = 14 - N, where bits [x-1:7] are zero; refused where one of them
is not (20_memory.md section 1; the refusal is 92_eei_decisions.md D11). -/
def Obligations.TableBase32IsTheBitsFromX : Prop :=
  ∀ (cell : DWord) (n : Fin 8),
    ((∃ k, 7 ≤ k ∧ k < 14 - n.val ∧ cell.getLsbD k = true) → tableBase32 cell n = .error .misalignedBase32) ∧
    ((∀ k, 7 ≤ k → k < 14 - n.val → cell.getLsbD k = false) →
      ∃ b, tableBase32 cell n = .ok b ∧ b.toNat % 2 ^ (14 - n.val) = 0 ∧
        ∀ k, k < 32 → b.getLsbD k = (decide (14 - n.val ≤ k) && cell.getLsbD k))

/-- TableBase64: bits [47:x] of the cell above x zeros, x = 5 - T0SZ for T0SZ 0 and 1 and 14 - T0SZ above, where bits
[x-1:3] are zero; refused where one of them is not (20_memory.md section 1; x and the refusal are 92_eei_decisions.md D21 and
D11, log entry 19). -/
def Obligations.TableBase64IsTheBitsFromX : Prop :=
  ∀ (cell : DWord) (t0sz : Fin 8), let x := if t0sz.val ≤ 1 then 5 - t0sz.val else 14 - t0sz.val
    ((∃ k, 3 ≤ k ∧ k < x ∧ cell.getLsbD k = true) → tableBase64 cell t0sz = .error .misalignedBase64) ∧
    ((∀ k, 3 ≤ k → k < x → cell.getLsbD k = false) →
      ∃ b, tableBase64 cell t0sz = .ok b ∧ b.toNat % 2 ^ x = 0 ∧
        ∀ k, k < 48 → b.getLsbD k = (decide (x ≤ k) && cell.getLsbD k))

/-- Alignment depends on TTBCR.N: a value aligned for one N is aligned for every larger N, and for every N below 7 there is
a value aligned for N + 1 and misaligned for N (70_reset_and_hazards.md section 3). -/
def Obligations.AlignmentDependsOnTtbcrN : Prop :=
  (∀ (cell : DWord) (n m : Fin 8), n ≤ m → misaligned32 cell n = false → misaligned32 cell m = false) ∧
  (∀ n m : Fin 8, m.val = n.val + 1 → ∃ cell, misaligned32 cell m = false ∧ misaligned32 cell n = true)

/-- A value with zeros in the reserved bits of the layout in use has an aligned base: a walk from it is not refused while
the CnP promise is kept (70_reset_and_hazards.md section 2). -/
def Obligations.PortableValueStartsAWalk : Prop :=
  ∀ (c : Config) (e : Env) (cell : DWord), portableValue c e cell = true → ∃ w, walkStart c e true cell = .ok w

/-- Under the 64-bit layout a walk from an aligned base starts with the Address size fault exactly when one of bits [47:40]
is set, and otherwise from a base below 2^40; under the 32-bit layout there is no such fault (20_memory.md section 1,
60_exceptions.md section 1). -/
def Obligations.AddressSizeFaultWhenBits47To40AreSet : Prop :=
  ∀ (c : Config) (e : Env) (cell : DWord),
    (e.ttbcrEAE = false → ∀ p, walkStart c e p cell ≠ .ok .addressSizeFault) ∧
    (e.ttbcrEAE = true → misaligned64 cell e.ttbcrT0SZ = false →
      ((∃ k, 40 ≤ k ∧ k < 48 ∧ cell.getLsbD k = true) → walkStart c e true cell = .ok .addressSizeFault) ∧
      ((∀ k, 40 ≤ k → k < 48 → cell.getLsbD k = false) →
        ∃ w, walkStart c e true cell = .ok (.table w) ∧ w.base.toNat < 2 ^ 40))

/-- MCRR stores any value and completes. Under the 64-bit layout and while the CnP promise is kept (log entry 22), an
aligned value with one of bits [47:40] set makes the walk that uses it start with the Address size fault, and a misaligned
one makes it refused (60_exceptions.md section 1, 20_memory.md section 1; that neither happens at the write is
92_eei_decisions.md D19 and D11; the order of the two is log entry 21, the value the walk uses log entry 20, a walk at EL2
log entry 29, that its address is in the lower VA range log entry 32). -/
def Obligations.FaultyBaseIsStoredAndStopsTheWalk : Prop :=
  ∀ (q : Cond) (t t2 : RegNum) (s : State) (c : CellName), t ≠ 15 → t2 ≠ 15 → Reaches .write s c →
    s.env.ttbcrEAE = true → let v : DWord := s.regs[t2] ++ s.regs[t]
    ∀ i ∈ [Instr.mcrrA32 q t t2, Instr.mcrrT32 t t2], Passes i s → ∃ u, exec i s = .next u ∧ u.cell c = v ∧
      (misaligned64 v s.env.ttbcrT0SZ = true → u.selectedWalkStart true = some (.error .misalignedBase64)) ∧
      (misaligned64 v s.env.ttbcrT0SZ = false → (∃ k, 40 ≤ k ∧ k < 48 ∧ v.getLsbD k = true) →
        u.selectedWalkStart true = some (.ok .addressSizeFault))

/-- Under the 64-bit layout a walk is handed the cell's table base, bits [55:48] as the ASID where TTBCR.A1 is 0 and
TTBR1.ASID where it is 1, bit [0] as CnP where the implementation has it, no attributes and no IMP bit, and is refused where
CnP is 1 and the promise among the PEs is broken (10_state.md section 4, 20_memory.md sections 1 and 5; position and polarity
by log entry 19, the promise by log entry 22). -/
def Obligations.WalkTakesAsidAndCnpFromTheCell : Prop :=
  ∀ (c : Config) (e : Env) (cell : DWord), e.ttbcrEAE = true → misaligned64 cell e.ttbcrT0SZ = false →
    (c.cnpImplemented = true → cell.getLsbD 0 = true → walkStart c e false cell = .error .cnpPromiseBroken) ∧
    (addressSizeFault64 cell = false → ∃ w, walkStart c e true cell = .ok (.table w) ∧
      tableBase64 cell e.ttbcrT0SZ = .ok w.base ∧
      w.asid = some (if e.ttbcrA1 then e.ttbr1ASID else cell.extractLsb' 48 8) ∧
      w.cnp = (if c.cnpImplemented then some (cell.getLsbD 0) else none) ∧ w.attrs = none ∧ w.imp = none)

/-- The laws of slice, concatenation and partial overwrite (40_system_register_access.md section 4). -/
def Obligations.WordsOfACellSplitAndJoin : Prop :=
  ∀ (hi lo w : Word) (v : DWord),
    highWord (joinWords hi lo) = hi ∧ lowWord (joinWords hi lo) = lo ∧ joinWords (highWord v) (lowWord v) = v ∧
    withLowWord v w = joinWords (highWord v) w ∧ lowWord (withLowWord v w) = w ∧
    highWord (withLowWord v w) = highWord v

/-- Under the 32-bit layout a walk is refused where one of bits [x-1:7] is set, x = 14 - N; otherwise it is handed the
cell's table base, bits [31:x] above zeros, the attributes of the 32-bit layout, bit [2] as the IMP bit where the
implementation has such features, and no CnP bit, whether or not the CnP promise is kept (20_memory.md section 1, 10_state.md
section 3, the refusal by 92_eei_decisions.md D11, the IMP bit by log entry 25). That it is handed no ASID is the model's
choice (log entry 31). -/
def Obligations.WalkTakesBaseAttributesAndImpFromTheCell : Prop :=
  ∀ (c : Config) (e : Env) (promiseKept : Bool) (cell : DWord), e.ttbcrEAE = false → let x := 14 - e.ttbcrN.val
    ((∃ k, 7 ≤ k ∧ k < x ∧ cell.getLsbD k = true) →
      walkStart c e promiseKept cell = .error .misalignedBase32) ∧
    ((∀ k, 7 ≤ k → k < x → cell.getLsbD k = false) →
      ∃ w b, walkStart c e promiseKept cell = .ok (.table w) ∧
        tableBase32 cell e.ttbcrN = .ok b ∧ w.base.toNat = b.toNat ∧
        (∀ k, k < 48 → w.base.getLsbD k = (decide (x ≤ k) && decide (k < 32) && cell.getLsbD k)) ∧
        w.attrs = some (walkAttrs32 cell) ∧ w.asid = none ∧ w.cnp = none ∧
        w.imp = (if c.impFeatures then some (cell.getLsbD 2) else none))

/-- Where the register is absent no TTBR0 storage exists: no access answers a next state, no run reads or writes a cell, and
no walk starts from one (00_scope.md section 2, 92_eei_decisions.md D17; that State still has the fields, and that there is
no walk, is log entry 30). -/
def Obligations.AbsentRegisterHasNoStorage : Prop :=
  ∀ (s : State), s.config.el1AArch32Capable = false →
    (∀ i t, exec i s ≠ .next t) ∧
    (∀ n c, (runEnd n s).state.cell c = s.cell c) ∧
    (∀ n c v, runEnd n (s.withCell c v) = (runEnd n s).map (State.withCell c v)) ∧
    ∀ promiseKept, s.selectedWalkStart promiseKept = none

/-- Where the register is present, the walk of the current level starts from the value of the cell an access would reach,
under the layout TTBCR.EAE selects: TTBR0_NS or TTBR0 at EL1, by whether EL3 uses AArch32, and at EL3 the cell SCR.NS
selects; there is none at EL0 (20_memory.md section 1, 10_state.md section 1; EL0 is log entry 22). That EL2 is as EL1 is
the model's choice (log entry 29), and so are that the address translated is taken to lie in the lower VA range (log entry
32) and that the value is the one the cell holds now: 70_reset_and_hazards.md section 3 leaves open when a walk sees a
written value (log entry 20). -/
def Obligations.WalkStartsFromTheSelectedCell : Prop :=
  ∀ (s : State) (promiseKept : Bool), s.config.el1AArch32Capable = true →
    let startsFrom (v : DWord) := s.selectedWalkStart promiseKept = some (walkStart s.config s.env promiseKept v)
    (s.env.el = .el0 → s.selectedWalkStart promiseKept = none) ∧
    (s.env.el = .el1 ∨ s.env.el = .el2 →
      (s.config.haveEL3 = true ∧ s.config.el3AArch32 = true → startsFrom s.ttbr0NS) ∧
      (¬ (s.config.haveEL3 = true ∧ s.config.el3AArch32 = true) → startsFrom s.ttbr0)) ∧
    (s.env.el = .el3 → (s.env.scrNS = false → startsFrom s.ttbr0S) ∧ (s.env.scrNS = true → startsFrom s.ttbr0NS))
end

