-- ==== Sys2Proof/Laws/State.lean ====
section
/-! SUPPORT. One lemma for each field of State under each named update, so that no proof unfolds a record update. -/

namespace Sys2Proof.Machine

section SetReg
variable (s : State) (i : RegNum) (v : Word)
@[simp] theorem setReg_regs : (s.setReg i v).regs = s.regs.set i v := rfl
@[simp] theorem setReg_ttbr0 : (s.setReg i v).ttbr0 = s.ttbr0 := rfl
@[simp] theorem setReg_ttbr0S : (s.setReg i v).ttbr0S = s.ttbr0S := rfl
@[simp] theorem setReg_ttbr0NS : (s.setReg i v).ttbr0NS = s.ttbr0NS := rfl
@[simp] theorem setReg_pc : (s.setReg i v).pc = s.pc := rfl
@[simp] theorem setReg_config : (s.setReg i v).config = s.config := rfl
@[simp] theorem setReg_env : (s.setReg i v).env = s.env := rfl
@[simp] theorem setReg_inputs : (s.setReg i v).inputs = s.inputs := rfl
@[simp] theorem setReg_laterInputs : (s.setReg i v).laterInputs = s.laterInputs := rfl
@[simp] theorem setReg_mem : (s.setReg i v).mem = s.mem := rfl
@[simp] theorem setReg_cell (c : CellName) : (s.setReg i v).cell c = s.cell c := by cases c <;> rfl
end SetReg

section AdvancePc
variable (s : State)
@[simp] theorem advancePc_pc : s.advancePc.pc = s.pc + 4 := rfl
@[simp] theorem advancePc_regs : s.advancePc.regs = s.regs := rfl
@[simp] theorem advancePc_ttbr0 : s.advancePc.ttbr0 = s.ttbr0 := rfl
@[simp] theorem advancePc_ttbr0S : s.advancePc.ttbr0S = s.ttbr0S := rfl
@[simp] theorem advancePc_ttbr0NS : s.advancePc.ttbr0NS = s.ttbr0NS := rfl
@[simp] theorem advancePc_config : s.advancePc.config = s.config := rfl
@[simp] theorem advancePc_env : s.advancePc.env = s.env := rfl
@[simp] theorem advancePc_inputs : s.advancePc.inputs = s.inputs := rfl
@[simp] theorem advancePc_laterInputs : s.advancePc.laterInputs = s.laterInputs := rfl
@[simp] theorem advancePc_mem : s.advancePc.mem = s.mem := rfl
@[simp] theorem advancePc_cell (c : CellName) : s.advancePc.cell c = s.cell c := by cases c <;> rfl
@[simp] theorem advancePc_reg (i : RegNum) : s.advancePc.reg i = s.reg i := rfl
end AdvancePc

section SetCell
variable (s : State) (c : CellName) (v : DWord)
@[simp] theorem setCell_regs : (s.setCell c v).regs = s.regs := by cases c <;> rfl
@[simp] theorem setCell_pc : (s.setCell c v).pc = s.pc := by cases c <;> rfl
@[simp] theorem setCell_config : (s.setCell c v).config = s.config := by cases c <;> rfl
@[simp] theorem setCell_env : (s.setCell c v).env = s.env := by cases c <;> rfl
@[simp] theorem setCell_inputs : (s.setCell c v).inputs = s.inputs := by cases c <;> rfl
@[simp] theorem setCell_laterInputs : (s.setCell c v).laterInputs = s.laterInputs := by cases c <;> rfl
@[simp] theorem setCell_mem : (s.setCell c v).mem = s.mem := by cases c <;> rfl
@[simp] theorem setCell_reg (i : RegNum) : (s.setCell c v).reg i = s.reg i := by cases c <;> rfl
@[simp] theorem setCell_cell_same : (s.setCell c v).cell c = v := by cases c <;> rfl
theorem setCell_cell_other (c' : CellName) (h : c' ≠ c) : (s.setCell c v).cell c' = s.cell c' := by
  cases c <;> cases c' <;> first | rfl | exact absurd rfl h
end SetCell

section NextInputs
variable (s : State)
@[simp] theorem nextInputs_pc : s.nextInputs.pc = s.pc := by unfold State.nextInputs; split <;> rfl
@[simp] theorem nextInputs_regs : s.nextInputs.regs = s.regs := by unfold State.nextInputs; split <;> rfl
@[simp] theorem nextInputs_ttbr0 : s.nextInputs.ttbr0 = s.ttbr0 := by unfold State.nextInputs; split <;> rfl
@[simp] theorem nextInputs_ttbr0S : s.nextInputs.ttbr0S = s.ttbr0S := by unfold State.nextInputs; split <;> rfl
@[simp] theorem nextInputs_ttbr0NS : s.nextInputs.ttbr0NS = s.ttbr0NS := by unfold State.nextInputs; split <;> rfl
@[simp] theorem nextInputs_config : s.nextInputs.config = s.config := by unfold State.nextInputs; split <;> rfl
@[simp] theorem nextInputs_env : s.nextInputs.env = s.env := by unfold State.nextInputs; split <;> rfl
@[simp] theorem nextInputs_mem : s.nextInputs.mem = s.mem := by unfold State.nextInputs; split <;> rfl
@[simp] theorem nextInputs_cell (c : CellName) : s.nextInputs.cell c = s.cell c := by cases c <;> simp [State.cell]
theorem nextInputs_inputs : s.nextInputs.inputs = s.laterInputs.headD s.inputs := by
  unfold State.nextInputs; split <;> simp_all
theorem nextInputs_laterInputs : s.nextInputs.laterInputs = s.laterInputs.tail := by
  unfold State.nextInputs; split <;> simp_all
end NextInputs

section Reset
variable (d dS dNS : DWord)
@[simp] theorem resetDraw_ttbr0 : (State.resetDraw d dS dNS).ttbr0 = d := rfl
@[simp] theorem resetDraw_ttbr0S : (State.resetDraw d dS dNS).ttbr0S = dS := rfl
@[simp] theorem resetDraw_ttbr0NS : (State.resetDraw d dS dNS).ttbr0NS = dNS := rfl
@[simp] theorem resetDraw_pc : (State.resetDraw d dS dNS).pc = 0 := rfl
@[simp] theorem resetDraw_config : (State.resetDraw d dS dNS).config = Config.atReset := rfl
@[simp] theorem resetDraw_env : (State.resetDraw d dS dNS).env = Env.atReset := rfl
@[simp] theorem resetDraw_mem : (State.resetDraw d dS dNS).mem = [] := rfl
end Reset

end Sys2Proof.Machine
end

