-- ==== Sys2Proof/Laws/Ops.lean ====
section
/-! SUPPORT. For each shared operation, once, everything it can do: proofs cite these instead of unfolding it. -/

namespace Sys2Proof.Machine

/-- A trap check that does not continue raises one of the two traps, only while EL2 is enabled (R66). -/
theorem trapCheckEL1_cases (d : Direction) (ec : Nat) (s : State) :
    trapCheckEL1 d ec s = none ∨
    (s.inputs.el2Enabled = true ∧ s.config.el2AArch32 = false ∧
      trapCheckEL1 d ec s = some (.aarch64SystemAccessTrap .el2 ec)) ∨
    (s.inputs.el2Enabled = true ∧ s.config.el2AArch32 = true ∧ trapCheckEL1 d ec s = some (.hypTrap ec)) := by
  unfold trapCheckEL1
  cases s.inputs.el2Enabled <;> cases s.config.el2AArch32 <;> simp <;> split <;> simp_all

/-- The cell an access reaches is the one SelectInstance gives (R67, R12). -/
theorem accessTarget_ok {d : Direction} {ec : Nat} {s : State} {c : CellName} (h : accessTarget d ec s = .ok c) :
    selectInstance s.config s.env.el s.env.scrNS = some c := by
  have key : ∀ {x}, selectedCell s = .ok x → selectInstance s.config s.env.el s.env.scrNS = some x := by
    intro x hx
    unfold selectedCell at hx
    split at hx
    · rename_i c' hc'
      rw [hc']
      exact congrArg some (Except.ok.inj hx)
    · cases hx
  unfold accessTarget at h
  split at h
  · cases h
  · split at h
    · cases h
    · exact key h
  · exact key h
  · split at h
    · cases h
    · exact key h

/-- A cell is reached only where the register is present and the tests of the skeleton reach it (R65, R67). -/
theorem presentTarget_ok {d : Direction} {ec : Nat} {s : State} {c : CellName} (h : presentTarget d ec s = .ok c) :
    s.config.el1AArch32Capable = true ∧ accessTarget d ec s = .ok c := by
  unfold presentTarget at h
  split at h
  · exact ⟨by assumption, h⟩
  · cases h

/-- Where the register is present the skeleton alone decides. -/
theorem presentTarget_of_present {s : State} (h : s.config.el1AArch32Capable = true) (d : Direction) (ec : Nat) :
    presentTarget d ec s = accessTarget d ec s := by simp [presentTarget, h]

/-- Where the register is absent every access comes to `Undefined` (R2). -/
theorem presentTarget_of_absent {s : State} (h : s.config.el1AArch32Capable = false) (d : Direction) (ec : Nat) :
    presentTarget d ec s = .error .undefined := by simp [presentTarget, h]

/-- An access that answers a next state: the register is present, the tests reach a cell, and the state after is the data
movement on that cell and then pc + 4, or pc + 4 alone where the condition failed (R65, R70). -/
theorem access_next {d : Direction} {ec : Nat} {p : Bool} {move : CellName → State → State} {s t : State}
    (h : access d ec p move s = .next t) :
    s.config.el1AArch32Capable = true ∧
    ∃ c, accessTarget d ec s = .ok c ∧ t = if p then (move c s).advancePc else s.advancePc := by
  unfold access at h
  split at h
  · split at h <;> cases h
  · rename_i c hc
    obtain ⟨hcap, ht⟩ := presentTarget_ok hc
    refine ⟨hcap, c, ht, ?_⟩
    split at h
    · rename_i hp
      simp only [hp, ↓reduceIte]
      exact (Host.Outcome.next.inj h).symm
    · rename_i hp
      simp only [hp]
      exact (Host.Outcome.next.inj h).symm

/-- A refused form gives no next state. -/
theorem unlessRefused_next {r : Option Refusal} {o : Outcome} {t : State} (h : unlessRefused r o = .next t) :
    r = none ∧ o = .next t := by
  cases r with
  | none => exact ⟨rfl, h⟩
  | some w => cases h

/-- A step that answers a next state ran the instruction it fetched and took the inputs of the next step. -/
theorem step_next {s t : State} (h : step s = .next t) :
    ∃ i u, fetch s = .ok i ∧ exec i s = .next u ∧ t = u.nextInputs := by
  unfold step at h
  split at h
  · rename_i i hi
    cases hu : exec i s with
    | next u =>
      rw [hu] at h
      exact ⟨i, u, hi, hu, (Host.Outcome.next.inj h).symm⟩
    | fault f => rw [hu] at h; cases h
    | refused r => rw [hu] at h; cases h
  · cases h

end Sys2Proof.Machine
end

