-- ==== Sys2Proof/Laws/Exec.lean ====
section
/-! SUPPORT. exec once for all instructions: each meaning is a refusal of its form or an access with its direction, code,
condition and data movement (40_system_register_access.md R79), and what follows of a next state. -/

namespace Sys2Proof

open Sys2Proof.Machine

/-- The refusal of the instruction's form, where R63 refuses it. -/
def Instr.formRefusal : Instr → Option Refusal
  | .mrcA32 _ t => refuseWord t
  | .mcrA32 _ t => refuseWord t
  | .mrrcA32 _ t t2 => refuseReadPair t t2
  | .mcrrA32 _ t t2 => refuseWritePair t t2
  | .mrcT32 t => refuseWord t
  | .mcrT32 t => refuseWord t
  | .mrrcT32 t t2 => refuseReadPair t t2
  | .mcrrT32 t t2 => refuseWritePair t t2

/-- ConditionPassed as the instruction sees it (R65). -/
def Instr.passed (i : Instr) (s : State) : Bool :=
  match i.cond? with
  | some c => passesA32 c s
  | none => passesT32 s

/-- The data movement of the instruction on a cell (R79). -/
def Instr.movement : Instr → CellName → State → State
  | .mrcA32 _ t => moveToReg t
  | .mcrA32 _ t => moveFromReg t
  | .mrrcA32 _ t t2 => moveToPair t t2
  | .mcrrA32 _ t t2 => moveFromPair t t2
  | .mrcT32 t => moveToReg t
  | .mcrT32 t => moveFromReg t
  | .mrrcT32 t t2 => moveToPair t t2
  | .mcrrT32 t t2 => moveFromPair t t2

namespace Machine

/-- exec of any instruction is one access, unless the form is refused. -/
theorem exec_eq_access (i : Instr) (s : State) :
    exec i s = unlessRefused i.formRefusal (access i.direction i.ec (i.passed s) i.movement s) := by
  cases i <;> rfl

/-- R63 refuses exactly the forms that are not admitted. -/
theorem formRefusal_eq_none_iff (i : Instr) : i.formRefusal = none ↔ i.admitted = true := by
  have pair : ∀ t t2 : RegNum, refuseReadPair t t2 = none ↔ (t != 15 && t2 != 15 && t != t2) = true := by
    intro t t2
    unfold refuseReadPair
    split
    · rename_i h
      rcases h with rfl | rfl <;> simp
    · rename_i h
      simp only [not_or] at h
      split <;> simp_all
  cases i with
  | mrrcA32 c t t2 => exact pair t t2
  | mrrcT32 t t2 => exact pair t t2
  | _ => simp [Instr.formRefusal, Instr.admitted, refuseWord, refuseWritePair, not_or]

/-- The condition passes as a Bool exactly when it passes as the statements say. -/
theorem passed_iff (i : Instr) (s : State) : i.passed s = true ↔ Passes i s := by
  cases i <;> simp [Instr.passed, Instr.cond?, Passes, passesA32, passesT32]

/-- What exec can do when it answers a next state: the form is admitted, the register present, the tests reach a cell, and
the state after is the data movement on that cell and then pc + 4, or pc + 4 alone where the condition failed. -/
theorem exec_next {i : Instr} {s t : State} (h : exec i s = .next t) :
    i.admitted = true ∧ s.config.el1AArch32Capable = true ∧
    ∃ c, accessTarget i.direction i.ec s = .ok c ∧ selectInstance s.config s.env.el s.env.scrNS = some c ∧
      t = if i.passed s then (i.movement c s).advancePc else s.advancePc := by
  rw [exec_eq_access] at h
  obtain ⟨hr, ha⟩ := unlessRefused_next h
  obtain ⟨hcap, c, hc, ht⟩ := access_next ha
  exact ⟨(formRefusal_eq_none_iff i).1 hr, hcap, c, hc, accessTarget_ok hc, ht⟩

end Machine

end Sys2Proof
end

