-- ==== Sys2Proof/Laws/Memory.lean ====
section
/-! SUPPORT. The program text: a byte written is the byte read, every other address reads as before, and every memory
operation keeps the canonical form. -/

namespace Sys2Proof.Machine

@[simp] theorem read_write_same (m : Memory) (a : Nat) (b : Byte) : Memory.read (Memory.write m a b) a = some b := by
  induction m with
  | nil => simp [Memory.write, Memory.read]
  | cons p m ih =>
    obtain ⟨k, c⟩ := p
    unfold Memory.write
    split
    · simp [Memory.read]
    · split
      · simp [Memory.read]
      · rename_i _ hne
        simp [Memory.read, Ne.symm hne, ih]

theorem read_write_other (m : Memory) (a a' : Nat) (b : Byte) (h : a' ≠ a) :
    Memory.read (Memory.write m a b) a' = Memory.read m a' := by
  induction m with
  | nil => simp [Memory.write, Memory.read, Ne.symm h]
  | cons p m ih =>
    obtain ⟨k, c⟩ := p
    unfold Memory.write
    split
    · simp [Memory.read, Ne.symm h]
    · split
      · rename_i _ he
        subst he
        simp [Memory.read, Ne.symm h]
      · simp [Memory.read, ih]

theorem risingFrom_write (m : Memory) (lo a : Nat) (b : Byte) (hlo : lo ≤ a) (h : Memory.risingFrom lo m = true) :
    Memory.risingFrom lo (Memory.write m a b) = true := by
  induction m generalizing lo with
  | nil => simp [Memory.write, Memory.risingFrom, hlo]
  | cons p m ih =>
    obtain ⟨k, c⟩ := p
    simp only [Memory.risingFrom, Bool.and_eq_true, decide_eq_true_eq] at h
    unfold Memory.write
    split
    · rename_i hlt
      simp [Memory.risingFrom, hlo, h.2]
      omega
    · split
      · rename_i _ he
        subst he
        simp [Memory.risingFrom, hlo, h.2]
      · rename_i h1 h2
        simp [Memory.risingFrom, h.1, ih (k + 1) (by omega) h.2]

theorem bounded_write (m : Memory) (a : Nat) (b : Byte) (ha : a < 2 ^ 32)
    (h : m.all (fun c => decide (c.1 < 2 ^ 32)) = true) :
    (Memory.write m a b).all (fun c => decide (c.1 < 2 ^ 32)) = true := by
  induction m with
  | nil => simpa [Memory.write] using ha
  | cons p m ih =>
    obtain ⟨k, c⟩ := p
    simp only [List.all_cons, Bool.and_eq_true, decide_eq_true_eq] at h
    unfold Memory.write
    split
    · simp only [List.all_cons, Bool.and_eq_true, decide_eq_true_eq]
      exact ⟨ha, h.1, h.2⟩
    · split
      · simp only [List.all_cons, Bool.and_eq_true, decide_eq_true_eq]
        exact ⟨ha, h.2⟩
      · simp only [List.all_cons, Bool.and_eq_true, decide_eq_true_eq]
        exact ⟨h.1, ih h.2⟩

/-- Writing a byte inside the address space keeps the canonical form. -/
theorem wf_write (m : Memory) (a : Nat) (b : Byte) (ha : a < 2 ^ 32) (h : Memory.wf m = true) :
    Memory.wf (Memory.write m a b) = true := by
  simp only [Memory.wf, Bool.and_eq_true] at h ⊢
  exact ⟨risingFrom_write m 0 a b (Nat.zero_le a) h.1, bounded_write m a b ha h.2⟩

/-- Loading bytes keeps the canonical form. -/
theorem wf_load (bs : List Byte) (m : Memory) (a : Word) (h : Memory.wf m = true) :
    Memory.wf (Memory.load m a bs) = true := by
  induction bs generalizing m a with
  | nil => exact h
  | cons b bs ih => exact ih _ _ (wf_write m a.toNat b a.isLt h)

/-- Placing an instruction at pc keeps the canonical form. -/
theorem wf_placeAtPc (s : State) (nbits w : Nat) (h : Memory.wf s.mem = true) :
    Memory.wf (s.placeAtPc nbits w).mem = true := wf_load _ _ _ h

/-- Memory after reset is in canonical form. -/
theorem wf_reset : Memory.wf State.reset.mem = true := rfl

end Sys2Proof.Machine
end

