-- ==== Sys2Proof/Laws/PerInstr.lean ====
section
/-! SUPPORT. Per-instruction facts: the word the encoder writes for a well-formed instruction matches the instruction's
own row of the opcode table, and no other row of its instruction set (30_encoding.md R61). -/

namespace Sys2Proof.Laws.EncodeInRow

/-- The encoded word matches the instruction's row and no other row of its set. -/
def Statement (i : Instr) : Prop :=
  i.WellFormed → ∀ r ∈ rowsOf i.iset, (r.covers (encode i) = true ↔ r = i.row)

/-- A 4-bit field under a mask that leaves it out does not show. -/
theorem place_masked (x y : BitVec 4) (lo : Nat) (m : Word) (hm : ∀ k, lo ≤ k → k < lo + 4 → m.getLsbD k = false)
    (i : Nat) : ((place x lo).getLsbD i && m.getLsbD i) = ((place y lo).getLsbD i && m.getLsbD i) := by
  by_cases h : lo ≤ i ∧ i < lo + 4
  · simp [hm i h.1 h.2]
  · simp only [place, BitVec.getLsbD_shiftLeft, BitVec.getLsbD_setWidth]
    by_cases h1 : i < lo
    · simp [h1]
    · simp [BitVec.getLsbD_of_ge x (i - lo) (by omega), BitVec.getLsbD_of_ge y (i - lo) (by omega)]

/-- A mask with zeros at bits 15 to 12 hides Rt. -/
theorem encode32_masked (c : BitVec 4) (l : BitVec 1) (t : RegNum) (m : Word)
    (hm : ∀ k, 12 ≤ k → k < 16 → m.getLsbD k = false) : encode32 c l t &&& m = encode32 c l 0 &&& m := by
  apply BitVec.eq_of_getLsbD_eq
  intro i _
  have ht := place_masked (regBits t) (regBits 0) 12 m hm i
  simp only [encode32, BitVec.getLsbD_and, BitVec.getLsbD_or, Bool.and_or_distrib_right, ht]

/-- A mask with zeros at bits 15 to 12 hides Rt. -/
theorem encode64_masked (c : BitVec 4) (l : BitVec 1) (t t2 : RegNum) (m : Word)
    (hm : ∀ k, 12 ≤ k → k < 16 → m.getLsbD k = false) : encode64 c l t t2 &&& m = encode64 c l 0 t2 &&& m := by
  apply BitVec.eq_of_getLsbD_eq
  intro i _
  have ht := place_masked (regBits t) (regBits 0) 12 m hm i
  simp only [encode64, BitVec.getLsbD_and, BitVec.getLsbD_or, Bool.and_or_distrib_right, ht]

/-- Every row of the table leaves Rt out. -/
theorem rows_leave_rt (s : InstrSet) : ∀ r ∈ rowsOf s, ∀ k, 12 ≤ k → k < 16 → r.mask.getLsbD k = false := by
  cases s <;> simp only [rowsOf, List.forall_mem_cons] <;>
    refine ⟨?_, ?_, ?_, ?_, by simp⟩ <;> intro k h1 h2 <;> interval_cases k <;> rfl

/-- A 32-bit access: it is enough to look at the word with Rt = 0. -/
theorem of_encode32 {i : Instr} {c : BitVec 4} {l : BitVec 1} {t : RegNum} (he : encode i = encode32 c l t)
    (h : i.WellFormed → ∀ r ∈ rowsOf i.iset, (r.covers (encode32 c l 0) = true ↔ r = i.row)) : Statement i := by
  intro hw r hr
  rw [← h hw r hr, he, Row.covers, Row.covers, encode32_masked c l t r.mask (rows_leave_rt _ r hr)]

/-- A 64-bit access: it is enough to look at the words with Rt = 0. -/
theorem of_encode64 {i : Instr} {c : BitVec 4} {l : BitVec 1} {t t2 : RegNum} (he : encode i = encode64 c l t t2)
    (h : i.WellFormed → ∀ r ∈ rowsOf i.iset, (r.covers (encode64 c l 0 t2) = true ↔ r = i.row)) : Statement i := by
  intro hw r hr
  rw [← h hw r hr, he, Row.covers, Row.covers, encode64_masked c l t t2 r.mask (rows_leave_rt _ r hr)]

/-- The A32 words with Rt = 0, for every condition. -/
theorem words_a32 : ∀ c : Cond, c.legal = true → ∀ r ∈ rowsOf .a32,
    (r.covers (encode32 c 1#1 0) = true ↔ r = .mrcA32) ∧ (r.covers (encode32 c 0#1 0) = true ↔ r = .mcrA32) := by decide

/-- The A32 words with Rt = 0, for every condition and Rt2. -/
theorem pairs_a32 : ∀ (c : Cond) (t2 : RegNum), c.legal = true → ∀ r ∈ rowsOf .a32,
    (r.covers (encode64 c 1#1 0 t2) = true ↔ r = .mrrcA32) ∧ (r.covers (encode64 c 0#1 0 t2) = true ↔ r = .mcrrA32) := by
  decide

/-- The T32 words with Rt = 0. -/
theorem words_t32 : ∀ r ∈ rowsOf .t32, (r.covers (encode32 0b1110#4 1#1 0) = true ↔ r = .mrcT32) ∧
    (r.covers (encode32 0b1110#4 0#1 0) = true ↔ r = .mcrT32) := by decide

/-- The T32 words with Rt = 0, for every Rt2. -/
theorem pairs_t32 : ∀ t2 : RegNum, ∀ r ∈ rowsOf .t32, (r.covers (encode64 0b1110#4 1#1 0 t2) = true ↔ r = .mrrcT32) ∧
    (r.covers (encode64 0b1110#4 0#1 0 t2) = true ↔ r = .mcrrT32) := by decide

theorem mrcA32 (c : Cond) (t : RegNum) : Statement (.mrcA32 c t) :=
  of_encode32 rfl fun hw r hr => (words_a32 c hw r hr).1

theorem mcrA32 (c : Cond) (t : RegNum) : Statement (.mcrA32 c t) :=
  of_encode32 rfl fun hw r hr => (words_a32 c hw r hr).2

theorem mrrcA32 (c : Cond) (t t2 : RegNum) : Statement (.mrrcA32 c t t2) :=
  of_encode64 rfl fun hw r hr => (pairs_a32 c t2 hw r hr).1

theorem mcrrA32 (c : Cond) (t t2 : RegNum) : Statement (.mcrrA32 c t t2) :=
  of_encode64 rfl fun hw r hr => (pairs_a32 c t2 hw r hr).2

theorem mrcT32 (t : RegNum) : Statement (.mrcT32 t) := of_encode32 rfl fun _ r hr => (words_t32 r hr).1

theorem mcrT32 (t : RegNum) : Statement (.mcrT32 t) := of_encode32 rfl fun _ r hr => (words_t32 r hr).2

theorem mrrcT32 (t t2 : RegNum) : Statement (.mrrcT32 t t2) :=
  of_encode64 rfl fun _ r hr => (pairs_t32 t2 r hr).1

theorem mcrrT32 (t t2 : RegNum) : Statement (.mcrrT32 t t2) :=
  of_encode64 rfl fun _ r hr => (pairs_t32 t2 r hr).2

end Sys2Proof.Laws.EncodeInRow
end

