-- ==== Sys2Proof/Laws/Walk.lean ====
section
/-! SUPPORT. For the functions a table walk uses, once, what each can answer, and the bits of what they compute. -/

namespace Sys2Proof.Machine

/-- A field of a value is not zero exactly when one of its bits is set. -/
theorem extractLsb'_ne_zero_iff {w : Nat} (v : BitVec w) (lo n : Nat) :
    (v.extractLsb' lo n != 0) = true ↔ ∃ k, lo ≤ k ∧ k < lo + n ∧ v.getLsbD k = true := by
  constructor
  · intro h
    by_contra hc
    push Not at hc
    have : v.extractLsb' lo n = 0 := by
      apply BitVec.eq_of_getLsbD_eq
      intro i hi
      simp [hi, hc (lo + i) (by omega) (by omega)]
    simp [this] at h
  · rintro ⟨k, h1, h2, h3⟩
    simp only [bne_iff_ne, ne_eq]
    intro h
    have := congrArg (fun b => b.getLsbD (k - lo)) h
    simp [show k - lo < n by omega, show lo + (k - lo) = k by omega, h3] at this

/-- The bits of a value cleared below `x`. -/
theorem getLsbD_clearBelow {w : Nat} (v : BitVec w) (x k : Nat) (h : k < w) :
    (clearBelow v x).getLsbD k = (decide (x ≤ k) && v.getLsbD k) := by
  unfold clearBelow
  simp only [BitVec.getLsbD_shiftLeft, BitVec.getLsbD_ushiftRight, h]
  by_cases hx : x ≤ k
  · simp [hx, show x + (k - x) = k by omega]
  · simp [hx]

/-- TableBase32 answers only an aligned base, the low word cleared below x (R44, R45). -/
theorem tableBase32_ok {cell : DWord} {n : Fin 8} {b : BitVec 32} (h : tableBase32 cell n = .ok b) :
    misaligned32 cell n = false ∧ b = clearBelow (lowWord cell) (baseShift32 n) := by
  unfold tableBase32 at h
  split at h
  · cases h
  · exact ⟨by simpa using ‹¬ misaligned32 cell n = true›, (Except.ok.inj h).symm⟩

/-- TableBase64 answers only an aligned base, bits [47:0] cleared below x (R46, R48). -/
theorem tableBase64_ok {cell : DWord} {t0sz : Fin 8} {b : BitVec 48} (h : tableBase64 cell t0sz = .ok b) :
    misaligned64 cell t0sz = false ∧ b = clearBelow (cell.extractLsb' 0 48) (baseShift64 t0sz) := by
  unfold tableBase64 at h
  split at h
  · cases h
  · exact ⟨by simpa using ‹¬ misaligned64 cell t0sz = true›, (Except.ok.inj h).symm⟩

/-- A walk start of the current level comes from a present register's selected cell (R2, R43). -/
theorem selectedWalkStart_some {p : Bool} {s : State} {r : Except WalkRefusal WalkStart}
    (h : s.selectedWalkStart p = some r) :
    s.config.el1AArch32Capable = true ∧
    ∃ c, selectInstance s.config s.env.el s.env.scrNS = some c ∧ r = walkStart s.config s.env p (s.cell c) := by
  unfold State.selectedWalkStart at h
  split at h
  · cases h
  · rename_i hc
    obtain ⟨c, hs, hr⟩ := Option.map_eq_some_iff.1 h
    exact ⟨by simpa using hc, c, hs, hr.symm⟩

end Sys2Proof.Machine
end

