-- ==== Sys2Proof/Tests/Slice0.lean ====
section
/-! SUPPORT. Tests: each well-formedness check refuses an ill-formed term; the words and value tables of
95_test_vectors.md; one step of each instruction, with the expected values of 95_test_vectors.md section 3; and, for every
obligation with hypotheses, a state and operands that meet them. -/

namespace Sys2Proof.Tests

open Sys2Proof.Machine

/-! ### Well-formedness -/

theorem test_cond_1111_is_ill_formed :
    (Instr.mrcA32 0b1111 0).wellFormed = false ∧ (Instr.mcrA32 0b1111 0).wellFormed = false ∧
    (Instr.mrrcA32 0b1111 0 1).wellFormed = false ∧ (Instr.mcrrA32 0b1111 0 1).wellFormed = false := by decide

theorem test_register_15_is_not_admitted :
    (Instr.mrcA32 .al 15).admitted = false ∧ (Instr.mcrA32 .al 15).admitted = false ∧
    (Instr.mrrcA32 .al 15 0).admitted = false ∧ (Instr.mrrcA32 .al 0 15).admitted = false ∧
    (Instr.mcrrA32 .al 15 1).admitted = false ∧ (Instr.mcrrA32 .al 0 15).admitted = false ∧
    (Instr.mrcT32 15).admitted = false ∧ (Instr.mcrT32 15).admitted = false ∧
    (Instr.mrrcT32 15 0).admitted = false ∧ (Instr.mrrcT32 0 15).admitted = false ∧
    (Instr.mcrrT32 15 1).admitted = false ∧ (Instr.mcrrT32 0 15).admitted = false := by decide

theorem test_mrrc_twice_is_not_admitted_and_mcrr_twice_is :
    (Instr.mrrcA32 .al 2 2).admitted = false ∧ (Instr.mrrcT32 2 2).admitted = false ∧
    (Instr.mcrrA32 .al 4 4).admitted = true ∧ (Instr.mcrrT32 4 4).admitted = true := by decide

/-! ### Decoding -/

/-- 95_test_vectors.md section 4.1, the rows with an answer; the MRC word bit by bit from 30_encoding.md R58. -/
theorem test_decode_a32 :
    decodeWord .a32 0b1110_1110_000_1_0010_0011_1111_000_1_0000 = .ok (.mrcA32 .al 3) ∧
    decodeWord .a32 0b1110_1110_000_0_0010_0111_1111_000_1_0000 = .ok (.mcrA32 .al 7) ∧
    decodeWord .a32 0b1110_1100010_1_0011_0010_1111_0000_0010 = .ok (.mrrcA32 .al 2 3) ∧
    decodeWord .a32 0b1110_1100010_0_0101_0100_1111_0000_0010 = .ok (.mcrrA32 .al 4 5) ∧
    decodeWord .a32 0x0E121F10 = .ok (.mrcA32 0b0000 1) ∧
    decodeWord .a32 0x1E123F10 = .ok (.mrcA32 0b0001 3) ∧
    decodeWord .a32 0xEC522F02 = .ok (.mrrcA32 .al 2 2) ∧
    decodeWord .a32 0xEE12FF10 = .ok (.mrcA32 .al 15) ∧
    decodeWord .a32 0xEE02FF10 = .ok (.mcrA32 .al 15) ∧
    decodeWord .a32 0xEC5F0F02 = .ok (.mrrcA32 .al 0 15) ∧
    decodeWord .a32 0xEC41FF02 = .ok (.mcrrA32 .al 15 1) := by decide

/-- 95_test_vectors.md section 4.2. -/
theorem test_decode_t32 :
    decodeWord .t32 0b1110_1110_000_1_0010_0000_1111_000_1_0000 = .ok (.mrcT32 0) ∧
    decodeWord .t32 0b1110_1110_000_0_0010_0111_1111_000_1_0000 = .ok (.mcrT32 7) ∧
    decodeWord .t32 0b1110_1100_010_1_0011_0010_1111_0000_0010 = .ok (.mrrcT32 2 3) ∧
    decodeWord .t32 0b1110_1100_010_0_0101_0100_1111_0000_0010 = .ok (.mcrrT32 4 5) ∧
    decodeWord .t32 0xFE120F10 = .error (.notInScope .t32 0xFE120F10) ∧
    decodeWord .t32 0xEE120F30 = .error (.notInScope .t32 0xEE120F30) := by decide

/-- 95_test_vectors.md section 4.1, the NotInScope rows. -/
theorem test_not_in_scope :
    ([0xFE120F10, 0xFC510F02, 0xEE120F30, 0xEE120F50, 0xEE120F11, 0xEE130F10, 0xEE320F10, 0xEE120E10, 0xEE120F00,
      0xEC510F12, 0xEC510F03, 0xEC510E02, 0xEC110F02, 0xE1A00000, 0xE12FFF1E, 0x00000000] : List Word).all
      (fun w => decide (decodeWord .a32 w = .error (.notInScope .a32 w))) = true := by decide

/-- 95_test_vectors.md section 4.2: the bytes of one word in each set; and text that is too short or not 32 bits wide. -/
theorem test_decode_bytes :
    decodeBytes .a32 false [0x10, 0x0F, 0x12, 0xEE] = .ok (.mrcA32 .al 0, []) ∧
    decodeBytes .t32 false [0x12, 0xEE, 0x10, 0x0F] = .ok (.mrcT32 0, []) ∧
    decodeBytes .a32 true [0xEE, 0x12, 0x0F, 0x10] = .ok (.mrcA32 .al 0, []) ∧
    decodeBytes .t32 true [0xEE, 0x12, 0x0F, 0x10] = .ok (.mrcT32 0, []) ∧
    decodeBytes .a32 false [0x10, 0x0F, 0x12] = .error .truncated ∧
    decodeBytes .t32 false [0x12, 0xEE, 0x10] = .error .truncated ∧
    decodeBytes .t32 false [0x00, 0xBF, 0x10, 0x0F] = .error (.notInScope16 0xBF00) := by decide

/-- The lowest word of each A32 row of the table. -/
theorem test_decode_table_word :
    decodeTableWord 32 0x0E120F10 = some (.mrcA32 0 0) ∧ decodeTableWord 32 0x0E020F10 = some (.mcrA32 0 0) ∧
    decodeTableWord 32 0x0C510F02 = some (.mrrcA32 0 0 1) ∧ decodeTableWord 32 0xEC400F02 = some (.mcrrA32 .al 0 0) ∧
    decodeTableWord 32 0xE1A00000 = none := by decide

/-! ### One step -/

/-- 95_test_vectors.md section 3.4: EL1, EL2Enabled() false, EL3 not implemented, pc = 0x8000. -/
def launch (ttbr0 : DWord) (regs : List (RegNum × Word)) : State :=
  regs.foldl (fun s p => s.setReg p.1 p.2)
    { State.resetDraw ttbr0 0 0 with
      pc := 0x8000
      config := { Config.atReset with haveEL3 := false, el3AArch32 := false }
      env := { Env.atReset with el := .el1 } }

/-- The same with PSTATE.T selecting T32. -/
def launchT32 (ttbr0 : DWord) (regs : List (RegNum × Word)) : State :=
  (launch ttbr0 regs).withEnv { Env.atReset with el := .el1, iset := .t32 }

/-- 95_test_vectors.md section 5.3: EL3 using AArch32. -/
def launchEl3 (ns : Bool) (signal : Signal) (secure nonSecure : DWord) : State :=
  { State.resetDraw 0 secure nonSecure with
    env := { Env.atReset with scrNS := ns }, inputs := { StepInputs.atReset with cp15sdisable := signal } }

/-- One step of the word at pc. -/
def stepWord (s : State) (w : Nat) : Outcome := step (s.withFetchWord 32 w)

/-- A next state of which `p` holds. -/
def nextIs (o : Outcome) (p : State → Bool) : Bool :=
  match o with
  | .next s => p s
  | .fault _ => false
  | .refused _ => false

/-- The given fault. -/
def faultIs (o : Outcome) (f : Fault) : Bool :=
  match o with
  | .next _ => false
  | .fault f' => f' == f
  | .refused _ => false

/-- The given refusal. -/
def refusalIs (o : Outcome) (r : Refusal) : Bool :=
  match o with
  | .next _ => false
  | .fault _ => false
  | .refused r' => r' == r

/-- Section 3.4 rows 1 and 13. -/
theorem test_mrc_a32 :
    nextIs (stepWord (launch 0x004200008000406A [(3, 0xDEADBEEF)]) 0xEE123F10) (fun s =>
      s.reg 3 == 0x8000406A && s.ttbr0 == 0x004200008000406A && s.pc == 0x8004) = true ∧
    nextIs (stepWord (launch 0x8000406A []) 0xEE12DF10) (fun s => s.reg 13 == 0x8000406A) = true := by decide

/-- Section 3.4 rows 14 and 15. -/
theorem test_mrc_a32_condition_failed :
    let s := launch 0x004200008000406A [(3, 0xDEADBEEF)]
    let failed := { s with inputs := { s.inputs with conditionPassed := false } }
    nextIs (stepWord failed 0x1E123F10) (fun s => s.reg 3 == 0xDEADBEEF && s.pc == 0x8004) = true ∧
    refusalIs (stepWord (failed.withEnv { Env.atReset with el := .el0 }) 0x1E123F10) .conditionFailedWouldRaise = true := by
  decide

/-- Section 3.4 rows 3 and 5. -/
theorem test_mcr_a32 :
    nextIs (stepWord (launch 0x0042000000000000 [(7, 0x8000406A)]) 0xEE027F10) (fun s =>
      s.ttbr0 == 0x004200008000406A && s.reg 7 == 0x8000406A) = true ∧
    nextIs (stepWord (launch 0 [(1, 0xFFFFFFFF)]) 0xEE021F10) (fun s => s.ttbr0 == 0x00000000FFFFFFFF) = true := by decide

/-- Sections 5.3 and 5.5: the write disable, and the bank SCR.NS selects. -/
theorem test_mcr_a32_at_el3 :
    faultIs (stepWord (launchEl3 false .high 1 2) 0xEE020F10) .undefined = true ∧
    nextIs (stepWord (launchEl3 false .notHigh 1 2) 0xEE020F10) (fun s => s.ttbr0S == 0 && s.ttbr0NS == 2) = true ∧
    nextIs (stepWord (launchEl3 true .high 1 2) 0xEE020F10) (fun s => s.ttbr0S == 1 && s.ttbr0NS == 0) = true := by
  decide

/-- Section 3.4 rows 6 and 7. -/
theorem test_mrrc_a32 :
    nextIs (stepWord (launch 0x0042000080001001 []) 0xEC532F02) (fun s =>
      s.reg 2 == 0x80001001 && s.reg 3 == 0x00420000) = true ∧
    nextIs (stepWord (launch 0x0042000080001001 []) 0xEC523F02) (fun s =>
      s.reg 3 == 0x80001001 && s.reg 2 == 0x00420000) = true := by decide

/-- Section 3.4 row 12 (bits [63:56] read as zero) and section 4.1's refused word. -/
theorem test_mrrc_a32_reserved_top_and_same_register :
    let s := launch 0xFFFFFFFFFFFFFFFF []
    nextIs (stepWord (s.withConfig { s.config with res0TopBehaviour := .readsZero }) 0xEC532F02) (fun s =>
      s.reg 2 == 0xFFFFFFFF && s.reg 3 == 0x00FFFFFF && s.ttbr0 == 0xFFFFFFFFFFFFFFFF) = true ∧
    refusalIs (stepWord s 0xEC522F02) .mrrcSameRegister = true := by decide

/-- Section 3.4 rows 8 and 9. -/
theorem test_mcrr_a32 :
    nextIs (stepWord (launch 1 [(4, 0x80001001), (5, 0x00420000)]) 0xEC454F02) (fun s =>
      s.ttbr0 == 0x0042000080001001) = true ∧
    nextIs (stepWord (launch 1 [(4, 0x12345678)]) 0xEC444F02) (fun s => s.ttbr0 == 0x1234567812345678) = true := by decide

/-- Section 3.4 row 10: no fault at the write, and the Address size fault at a walk. -/
theorem test_mcrr_a32_address_size :
    nextIs (stepWord ((launch 1 [(1, 0x100)]).withEnv { Env.atReset with el := .el1, ttbcrEAE := true }) 0xEC410F02)
      (fun s => s.ttbr0 == 0x0000010000000000 &&
        decide (s.selectedWalkStart true = some (.ok .addressSizeFault))) = true := by decide

/-- Section 3.4 row 1 in T32; section 5.4's variant with HSTR.T2. -/
theorem test_mrc_t32 :
    let s := launchT32 0x004200008000406A [(0, 0xDEADBEEF)]
    nextIs (stepWord s 0xEE120F10) (fun s => s.reg 0 == 0x8000406A && s.pc == 0x8004) = true ∧
    faultIs (stepWord { s with env := { s.env with hstrT2 := true }, inputs := { s.inputs with el2Enabled := true } }
      0xEE120F10) (.hypTrap 0x03) = true := by decide

/-- Section 3.4 row 4 in T32; section 5.4's variant with EL2 using AArch64. -/
theorem test_mcr_t32 :
    let s := launchT32 0xFFFFFFFFFFFFFFFF []
    nextIs (stepWord s 0xEE021F10) (fun s => s.ttbr0 == 0xFFFFFFFF00000000) = true ∧
    faultIs (stepWord { s with
        env := { s.env with hcrEL2TVM := true }, config := { s.config with el2AArch32 := false },
        inputs := { s.inputs with el2Enabled := true } }
      0xEE021F10) (.aarch64SystemAccessTrap .el2 0x03) = true := by decide

/-- Section 3.4 row 6 in T32; the 64-bit code. -/
theorem test_mrrc_t32 :
    let s := launchT32 0x0042000080001001 []
    nextIs (stepWord s 0xEC532F02) (fun s => s.reg 2 == 0x80001001 && s.reg 3 == 0x00420000) = true ∧
    faultIs (stepWord { s with env := { s.env with hcrTRVM := true }, inputs := { s.inputs with el2Enabled := true } }
      0xEC532F02) (.hypTrap 0x04) = true := by decide

/-- Section 3.4 row 8 in T32; TRVM is not the control of a write. -/
theorem test_mcrr_t32 :
    let s := launchT32 1 [(4, 0x80001001), (5, 0x00420000)]
    nextIs (stepWord { s with env := { s.env with hcrTRVM := true }, inputs := { s.inputs with el2Enabled := true } }
      0xEC454F02) (fun s => s.ttbr0 == 0x0042000080001001) = true := by decide

/-- Section 5.1 end to end in the small: the run of one instruction ends normally at pc + 4, where no text stands. -/
theorem test_run_ends_normally :
    (match runEnd 2 ((launch 0 [(0, 5)]).withFetchWord 32 0xEE020F10) with
      | .normal s => s.pc == 0x8004 && s.ttbr0 == 5
      | .fault _ _ => false
      | .refusal _ _ => false
      | .running _ => false) = true := by decide

/-! ### The value read by a walk -/

/-- 95_test_vectors.md section 2.1. -/
theorem test_walk_attrs_32 :
    walkAttrs32 0x8000406A = ⟨.writeBackWriteAllocate, .writeBackWriteAllocate, .innerShareable⟩ ∧
    walkAttrs32 0x40 = ⟨.writeBackWriteAllocate, .nonCacheable, .nonShareable⟩ ∧
    walkAttrs32 0x01 = ⟨.writeThrough, .nonCacheable, .nonShareable⟩ ∧
    walkAttrs32 0x7F = ⟨.writeBackNoWriteAllocate, .writeBackNoWriteAllocate, .innerShareable⟩ ∧
    walkAttrs32 0x02 = ⟨.nonCacheable, .nonCacheable, .outerShareable⟩ ∧
    walkAttrs32 0x20 = ⟨.nonCacheable, .nonCacheable, .nonShareable⟩ ∧
    walkAttrs32 0xFFFFFFFF00000000 = ⟨.nonCacheable, .nonCacheable, .nonShareable⟩ := by decide

/-- 95_test_vectors.md section 2.2: x for every N and T0SZ. -/
theorem test_base_shifts :
    (List.finRange 8).map baseShift32 = [14, 13, 12, 11, 10, 9, 8, 7] ∧
    (List.finRange 8).map baseShift64 = [5, 4, 12, 11, 10, 9, 8, 7] := by decide

/-- 95_test_vectors.md section 2.3. -/
theorem test_table_base_32 :
    tableBase32 0x8000406A 0 = .ok 0x80004000 ∧ tableBase32 0x80004080 0 = .error .misalignedBase32 ∧
    tableBase32 0x80004080 6 = .error .misalignedBase32 ∧ tableBase32 0x80004080 7 = .ok 0x80004080 ∧
    tableBase32 0xFFFFFFFF 7 = .ok 0xFFFFFF80 ∧ tableBase32 0xFFFFC07F 0 = .ok 0xFFFFC000 ∧
    tableBase32 0x1234507F 3 = .ok 0x12345000 := by decide

/-- 95_test_vectors.md section 2.4. -/
theorem test_table_base_64 :
    tableBase64 0x0042000080001001 0 = .ok 0x80001000 ∧ tableBase64 0x00FF00FFFFFFFFE6 0 = .ok 0x00FFFFFFFFE0 ∧
    tableBase64 0x00FF00FFFFFFFFE8 1 = .error .misalignedBase64 ∧ tableBase64 0x0000800000000000 7 = .ok 0x800000000000 ∧
    tableBase64 0x0001000000000080 7 = .ok 0x80 ∧ tableBase64 0x0001000000000080 6 = .error .misalignedBase64 ∧
    tableBase64 0x0FF8 2 = .error .misalignedBase64 ∧ tableBase64 0x1000 2 = .ok 0x1000 := by decide

/-- 95_test_vectors.md sections 2.4 and 2.5. -/
theorem test_asid_and_fault_64 :
    currentASID64 false 0x99 0x0042000080001001 = 0x42 ∧ currentASID64 true 0x99 0x0042000080001001 = 0x99 ∧
    currentASID64 false 0x99 0xFF00000000000000 = 0x00 ∧ addressSizeFault64 0x0000010000000000 = true ∧
    addressSizeFault64 0xFF00000000000000 = false ∧ addressSizeFault64 0x00FF00FFFFFFFFE0 = false := by decide

/-! ### A state and operands for the hypotheses of every obligation

Each theorem meets the hypotheses of the obligation its name ends in, clause by clause. -/

/-- EL1 with EL2 enabled, using AArch32 where `a2` says so, and no control set. -/
def launchEl1 (a2 : Bool) : State :=
  let s := launch 7 []
  { s with config := { s.config with el2AArch32 := a2 }, inputs := { s.inputs with el2Enabled := true } }

/-- `launch` with the A32 word of an instruction laid at pc. -/
def placed (i : Instr) : State := (launch 7 []).withFetchWord 32 (encode i).toNat

/-- The launch state with a condition that fails. -/
def launchFailed (el : EL) : State :=
  let s := (launch 7 []).withEnv { Env.atReset with el := el }
  { s with inputs := { s.inputs with conditionPassed := false } }

/-- The same on a machine without the register. -/
def absent (el : EL) : State :=
  (launchFailed el).withConfig { Config.atReset with el1AArch32Capable := false }

theorem witness_DecodeInvertsEncode :
    (Instr.mrcA32 0b1110 15).WellFormed ∧ (Instr.mcrA32 0 0).WellFormed ∧ (Instr.mrrcA32 1 2 2).WellFormed ∧
    (Instr.mcrrA32 .al 0 15).WellFormed ∧ (Instr.mrcT32 15).WellFormed ∧ (Instr.mcrT32 0).WellFormed ∧
    (Instr.mrrcT32 2 2).WellFormed ∧ (Instr.mcrrT32 15 0).WellFormed := by decide

theorem witness_EncodeInvertsDecode :
    decodeWord .a32 0x0E121F10 = .ok (.mrcA32 0 1) ∧ decodeWord .t32 0xEC454F02 = .ok (.mcrrT32 4 5) := by decide

theorem witness_DecodeAnswersExactlyOnTableRows :
    Row.mrcA32 ∈ rowsOf .a32 ∧ (0x0E121F10 : Word) &&& Row.mrcA32.mask = Row.mrcA32.value := by decide

theorem witness_StepRunsTheDecodedInstruction_next :
    ∃ t, decodeBytes .a32 false (Memory.run (placed (.mrcA32 .al 3)).mem 0x8000 4) = .ok (.mrcA32 .al 3, []) ∧
      (Instr.mrcA32 .al 3).WellFormed ∧ exec (.mrcA32 .al 3) (placed (.mrcA32 .al 3)) = .next t :=
  ⟨_, by decide, by decide, rfl⟩

theorem witness_StepRunsTheDecodedInstruction_fault :
    let s := (placed (.mcrA32 .al 3)).withEnv { Env.atReset with el := .el0 }
    decodeBytes .a32 false (Memory.run s.mem s.pc 4) = .ok (.mcrA32 .al 3, []) ∧
      exec (.mcrA32 .al 3) s = .fault .undefined := ⟨by decide, rfl⟩

theorem witness_StepRunsTheDecodedInstruction_refused :
    let s := placed (.mrrcA32 .al 2 2)
    decodeBytes .a32 false (Memory.run s.mem s.pc 4) = .ok (.mrrcA32 .al 2 2, []) ∧
      exec (.mrrcA32 .al 2 2) s = .refused .mrrcSameRegister := ⟨by decide, rfl⟩

theorem witness_StepStopsWhereNoInstructionStands :
    Memory.read State.reset.mem State.reset.pc.toNat = none ∧
    Memory.read (State.reset.withFetchWord 32 0xE1A00000).mem 0 = some 0 ∧
    decodeBytes .a32 false (Memory.run (State.reset.withFetchWord 32 0xE1A00000).mem 0 4) =
      .error (.notInScope .a32 0xE1A00000) := by decide

theorem witness_PlacedInstructionIsTheNextToRun :
    (Instr.mcrrT32 4 4).WellFormed ∧ (Instr.mcrrT32 4 4).iset = (launchT32 0 []).env.iset ∧
    (∀ k : Nat, k < 4 → 2 ≠ ((0xFFFFFFFE : Word).toNat + k) % 2 ^ 32) := by decide

theorem witness_MrcReadsTheLowWord :
    (14 : RegNum) ≠ 15 ∧ Reaches .read (launch 7 []) .ttbr0 ∧ Reaches .read (launchEl3 false .high 1 2) .ttbr0S ∧
    Reaches .read (launchEl3 true .notHigh 1 2) .ttbr0NS ∧ Passes (.mrcA32 0 14) (launch 7 []) ∧
    Passes (.mrcT32 14) (launch 7 []) :=
  ⟨by decide, ⟨rfl, rfl⟩, ⟨rfl, rfl⟩, ⟨rfl, rfl⟩, .inr rfl, .inr rfl⟩

theorem witness_McrWritesTheLowWord :
    (0 : RegNum) ≠ 15 ∧ Reaches .write (launch 7 []) .ttbr0 ∧ Reaches .write (launchEl3 false .notHigh 1 2) .ttbr0S ∧
    Reaches .write (launchEl3 true .high 1 2) .ttbr0NS ∧ Passes (.mcrA32 .al 0) (launchFailed .el1) ∧
    Passes (.mcrT32 0) (launch 7 []) :=
  ⟨by decide, ⟨rfl, rfl⟩, ⟨rfl, rfl⟩, ⟨rfl, rfl⟩, .inl rfl, .inr rfl⟩

theorem witness_MrrcReadsBothWords :
    (0 : RegNum) ≠ 15 ∧ (14 : RegNum) ≠ 15 ∧ (0 : RegNum) ≠ 14 ∧ Reaches .read (launch 7 []) .ttbr0 ∧
    Passes (.mrrcA32 0 0 14) (launch 7 []) ∧ Passes (.mrrcT32 0 14) (launch 7 []) :=
  ⟨by decide, by decide, by decide, ⟨rfl, rfl⟩, .inr rfl, .inr rfl⟩

theorem witness_McrrWritesBothWords :
    (14 : RegNum) ≠ 15 ∧ Reaches .write (launch 7 []) .ttbr0 ∧ Passes (.mcrrA32 0 14 14) (launch 7 []) ∧
    Passes (.mcrrT32 14 14) (launch 7 []) := ⟨by decide, ⟨rfl, rfl⟩, .inr rfl, .inr rfl⟩

theorem witness_OutcomeByExceptionLevel :
    (Instr.mcrT32 14).admitted = true ∧ Passes (.mcrT32 14) (launch 7 []) ∧
    (launch 7 []).config.el1AArch32Capable = true ∧ accessTable .write (launch 7 []) = .reaches .ttbr0 ∧
    accessTable .write (launchEl3 false .high 1 2) = .undefined ∧
    accessTable .write ((launchEl1 true).withEnv { Env.atReset with el := .el1, hcrTVM := true }) = .trapHyp ∧
    accessTable .write ((launchEl1 false).withEnv { Env.atReset with el := .el1, hstrEL2T2 := true }) = .trapAArch64 :=
  ⟨rfl, .inr rfl, rfl, rfl, rfl, rfl, rfl⟩

theorem witness_AccessesAgreeWithTheirPseudocode :
    (0 : RegNum) ≠ 15 ∧ (14 : RegNum) ≠ 15 ∧ (0 : RegNum) ≠ 14 ∧ (launch 7 []).config.el1AArch32Capable = true ∧
    (launch 7 []).config.res0TopBehaviour = .readAsWritten ∧ (launch 7 []).inputs.conditionPassed = true := by decide

theorem witness_TrapChainRunsAtEl1Only :
    (Instr.mrcA32 .al 0).admitted = true ∧ Passes (.mrcA32 .al 0) (launchEl1 true) ∧
    (launchEl1 true).config.el1AArch32Capable = true ∧ (launchEl1 true).env.el = .el1 ∧
    (launchEl3 true .notHigh 1 2).env.el ≠ .el1 := ⟨rfl, .inl rfl, rfl, rfl, by decide⟩

theorem witness_Cp15sdisableDisablesSecureWritesOnly :
    let s := (launchEl3 false .high 1 2).withFetchWord 32 (encode (.mcrA32 .al 3)).toNat
    (Instr.mcrA32 .al 3).admitted = true ∧
    (Passes (.mcrA32 .al 3) s ∧ s.config.el1AArch32Capable = true ∧ s.env.el = .el3 ∧ s.env.scrNS = false ∧
      s.inputs.cp15sdisable = .high ∧ fetch s = .ok (.mcrA32 .al 3)) ∧
    (launchEl3 false .notHigh 1 2).inputs.cp15sdisable = .notHigh ∧
    (Instr.mrcA32 .al 3).direction = .read ∧ (launch 7 []).env.el ≠ .el3 ∧
    (launchEl3 true .high 1 2).env.scrNS = true :=
  ⟨rfl, ⟨.inl rfl, rfl, rfl, rfl, rfl, rfl⟩, rfl, rfl, by decide, rfl⟩

theorem witness_UndefinedHasExactlyThreeCauses :
    (Instr.mcrrA32 .al 4 4).admitted = true ∧ Passes (.mcrrA32 .al 4 4) (launchEl3 false .high 1 2) ∧
    exec (.mcrrA32 .al 4 4) (launchEl3 false .high 1 2) = .fault .undefined := ⟨rfl, .inl rfl, rfl⟩

theorem witness_TrapsAreRaisedExactlyUnderTheirControls :
    let s32 := (launchEl1 true).withEnv { Env.atReset with el := .el1, hstrT2 := true }
    let s64 := (launchEl1 false).withEnv { Env.atReset with el := .el1, hcrEL2TRVM := true }
    exec (.mrcA32 .al 0) s32 = .fault (.hypTrap 3) ∧ Passes (.mrcA32 .al 0) s32 ∧ s32.config.el1AArch32Capable = true ∧
    exec (.mrrcT32 0 1) s64 = .fault (.aarch64SystemAccessTrap .el2 4) ∧ Passes (.mrrcT32 0 1) s64 ∧
    (Instr.mrcA32 .al 0).admitted = true ∧ (Instr.mrrcT32 0 1).admitted = true :=
  ⟨rfl, .inl rfl, rfl, rfl, .inr rfl, rfl, rfl⟩

theorem witness_AccessAtEl2AlwaysCompletes :
    (Instr.mcrA32 0 14).admitted = true ∧ (launchFailed .el2).env.el = .el2 ∧
    (launchFailed .el2).config.el1AArch32Capable = true := by decide

theorem witness_AccessAtEl0OrWithoutTheRegisterIsUndefined :
    (Instr.mrcA32 .al 14).admitted = true ∧ (launchFailed .el0).env.el = .el0 ∧
    Passes (.mrcA32 .al 14) (launchFailed .el0) ∧ (absent .el1).config.el1AArch32Capable = false ∧
    (Instr.mcrT32 14).admitted = true ∧ ¬ Passes (.mcrT32 14) (absent .el1) :=
  ⟨rfl, rfl, .inl rfl, rfl, rfl, by unfold Passes; decide⟩

/-- 40_system_register_access.md R65: an access to an absent register is Undefined where its condition passes and refused
where it fails. -/
theorem test_absent_register :
    faultIs (exec (.mrcA32 .al 3) (absent .el1)) .undefined = true ∧
    refusalIs (exec (.mrcA32 0b0001 3) (absent .el1)) .conditionFailedWouldRaise = true := by decide

theorem witness_FailedConditionSkipsOrIsRefused :
    (Instr.mrcA32 0b0001 3).admitted = true ∧ ¬ Passes (.mrcA32 0b0001 3) (launchFailed .el1) ∧
    Reaches .read (launchFailed .el1) .ttbr0 ∧ ¬ Passes (.mrcA32 0b0001 3) (launchFailed .el0) ∧
    (∀ c, ¬ Reaches .read (launchFailed .el0) c) ∧ ¬ Passes (.mrcA32 0b0001 3) (absent .el1) ∧
    ∀ c, ¬ Reaches .read (absent .el1) c :=
  ⟨rfl, (by unfold Passes; decide), ⟨rfl, rfl⟩, (by unfold Passes; decide), (fun _ h => nomatch h.2),
    (by unfold Passes; decide), fun _ h => nomatch h.1⟩

theorem witness_RefusedFormsAreRegister15AndMrrcTwice :
    15 ∈ (Instr.mcrrA32 .al 0 15).operands ∧ exec (.mcrrA32 .al 0 15) (launch 7 []) = .refused .registerFifteen ∧
    exec (.mrrcT32 14 14) (launch 7 []) = .refused .mrrcSameRegister ∧ (14 : RegNum) ≠ 15 :=
  ⟨by decide, rfl, rfl, by decide⟩

theorem witness_AdmittedAccessHasANamedOutcome : (Instr.mrrcT32 14 0).admitted = true := by decide

theorem witness_ReadAccessFrame :
    (Instr.mrrcA32 .al 0 14).direction = .read ∧ ∃ t, exec (.mrrcA32 .al 0 14) (launch 7 []) = .next t := ⟨rfl, _, rfl⟩

theorem witness_WriteAccessFrame :
    (Instr.mcrT32 14).direction = .write ∧ ∃ t, exec (.mcrT32 14) (launch 7 []) = .next t := ⟨rfl, _, rfl⟩

theorem witness_AccessWidthsAre32And64Bits :
    (0 : RegNum) ≠ 15 ∧ (14 : RegNum) ≠ 15 ∧ (0 : RegNum) ≠ 14 ∧
    (launch 7 []).config.res0TopBehaviour = .readAsWritten ∧ Reaches .read (launch 7 []) .ttbr0 ∧
    Reaches .write (launch 7 []) .ttbr0 ∧ Passes (.mrcA32 0 0) (launch 7 []) ∧ Passes (.mcrT32 0) (launch 7 []) ∧
    Passes (.mrrcA32 .al 0 14) (launch 7 []) ∧ Passes (.mcrrT32 0 14) (launch 7 []) :=
  ⟨by decide, by decide, by decide, rfl, ⟨rfl, rfl⟩, ⟨rfl, rfl⟩, .inr rfl, .inr rfl, .inl rfl, .inr rfl⟩

theorem witness_ScrNsSelectsTheCellAtEl3Only :
    (launch 7 []).env.el ≠ .el3 ∧ (launchEl3 true .high 1 2).env.el = .el3 ∧ CellName.ttbr0 ≠ CellName.ttbr0NS ∧
    (0 : RegNum) ≠ 15 ∧ (launchEl3 true .high 1 2).config.el1AArch32Capable = true ∧
    Passes (.mrcA32 .al 0) (launchEl3 true .high 1 2) ∧ Passes (.mcrA32 .al 0) (launchEl3 true .high 1 2) ∧
    ¬ ((launchEl3 true .high 1 2).env.scrNS = false ∧ (launchEl3 true .high 1 2).inputs.cp15sdisable = .high) :=
  ⟨by decide, rfl, by decide, by decide, rfl, .inl rfl, .inl rfl, by decide⟩

theorem witness_WrittenValueIsReadBack :
    (4 : RegNum) ≠ 15 ∧ (0 : RegNum) ≠ 15 ∧ (0 : RegNum) ≠ 14 ∧ (14 : RegNum) ≠ 15 ∧
    Reaches .write (launchEl3 false .notHigh 1 2) .ttbr0S ∧ Reaches .read (launchEl3 false .notHigh 1 2) .ttbr0S :=
  ⟨by decide, by decide, by decide, by decide, ⟨rfl, rfl⟩, ⟨rfl, rfl⟩⟩

theorem witness_ReadThenWriteBackKeepsTheCell :
    (0 : RegNum) ≠ 15 ∧ (14 : RegNum) ≠ 15 ∧ (0 : RegNum) ≠ 14 ∧ Reaches .write (launch 7 []) .ttbr0 ∧
    Reaches .read (launch 7 []) .ttbr0 ∧ (launch 7 []).config.res0TopBehaviour = .readAsWritten :=
  ⟨by decide, by decide, by decide, ⟨rfl, rfl⟩, ⟨rfl, rfl⟩, rfl⟩

theorem witness_StepKeepsTheRunInvariant :
    Inv (placed (.mcrrA32 .al 0 1)) ∧ ∃ t, step (placed (.mcrrA32 .al 0 1)) = .next t :=
  ⟨⟨by decide, by decide, by unfold LaunchOk; decide⟩, _, rfl⟩

theorem witness_StoppedRunStandsBeforeItsLastStep :
    (∃ t, runEnd 1 ((placed (.mcrA32 .al 3)).withEnv { Env.atReset with el := .el0 }) = .fault .undefined t) ∧
    (∃ t, runEnd 2 (placed (.mcrA32 .al 3)) = .normal t) ∧
    ∃ t, runEnd 1 (placed (.mcrA32 .al 15)) = .refusal .registerFifteen t := ⟨⟨_, rfl⟩, ⟨_, rfl⟩, _, rfl⟩

/-- One MCRR and then the end of the text. -/
theorem witness_AdmittedTextAtEl2RunsSafely :
    let s := (placed (.mcrrA32 .al 0 1)).withEnv { Env.atReset with el := .el2 }
    s.env.el = .el2 ∧ s.config.el1AArch32Capable = true ∧ (Instr.mcrrA32 .al 0 1).admitted = true ∧
    fetch s = .ok (.mcrrA32 .al 0 1) ∧ fetch { s with pc := s.pc + 4 } = .error .endOfProgram :=
  ⟨rfl, rfl, rfl, rfl, rfl⟩

theorem witness_OnlyMcrrChangesBits63To32 :
    nextIs (step ((launch 7 [(1, 5)]).withFetchWord 32 0xEC410F02)) (fun t =>
      decide (t.ttbr0.extractLsb' 32 32 ≠ (launch 7 [(1, 5)]).ttbr0.extractLsb' 32 32)) = true := by decide

theorem witness_SecureCellIsHiddenBelowEl3 : (placed (.mrrcA32 .al 0 1)).env.el ≠ .el3 := by decide

theorem witness_UnreachableCellsAreNeitherReadNorWritten :
    LaunchOk (launchEl3 true .high 1 2) ∧ (launchEl3 true .high 1 2).config.haveEL3 = true ∧
    (launchEl3 true .high 1 2).config.el3AArch32 = true ∧ LaunchOk (launch 7 []) ∧
    ¬ ((launch 7 []).config.haveEL3 = true ∧ (launch 7 []).config.el3AArch32 = true) :=
  ⟨by unfold LaunchOk; decide, rfl, rfl, by unfold LaunchOk; decide, by decide⟩

/-- A change of HCR.TVM at EL1 with EL2 using AArch32, under a read: the controls that apply are as they were. -/
theorem witness_TrapControlsReadOnlyWhereTheyApply :
    let s := launchEl1 true
    let e := { s.env with hcrTVM := true, hstrEL2T2 := true }
    e.el = s.env.el ∧ e.scrNS = s.env.scrNS ∧ s.inputs.el2Enabled = true ∧ e.hstrT2 = s.env.hstrT2 ∧
    e.hcrTRVM = s.env.hcrTRVM ∧ e ≠ s.env ∧ (Instr.mrcA32 .al 0).direction = .read ∧
    s.config.el2AArch32 ≠ false := by decide

theorem witness_TableBase32IsTheBitsFromX :
    (7 ≤ 13 ∧ 13 < 14 - (0 : Fin 8).val ∧ (0x2000 : DWord).getLsbD 13 = true) ∧
    (∀ k, 7 ≤ k → k < 14 - (0 : Fin 8).val → (0x4000 : DWord).getLsbD k = false) :=
  ⟨by decide, by intro k h1 (h2 : k < 14); interval_cases k <;> rfl⟩

theorem witness_TableBase64IsTheBitsFromX :
    (3 ≤ 11 ∧ 11 < 14 - (2 : Fin 8).val ∧ (0x800 : DWord).getLsbD 11 = true) ∧
    (∀ k, 3 ≤ k → k < 5 - (0 : Fin 8).val → (0x26 : DWord).getLsbD k = false) :=
  ⟨by decide, by intro k h1 (h2 : k < 5); interval_cases k <;> rfl⟩

theorem witness_AlignmentDependsOnTtbcrN :
    (6 : Fin 8) ≤ 7 ∧ misaligned32 0x80004000 6 = false ∧ (7 : Fin 8).val = (6 : Fin 8).val + 1 := by decide

theorem witness_PortableValueStartsAWalk :
    portableValue Config.atReset Env.atReset 0x8000406A = true ∧
    portableValue Config.atReset { Env.atReset with ttbcrEAE := true } 0x0042000080001001 = true := by decide

theorem witness_AddressSizeFaultWhenBits47To40AreSet :
    Env.atReset.ttbcrEAE = false ∧ misaligned64 0x0000010000000000 0 = false ∧
    (40 ≤ 40 ∧ 40 < 48 ∧ (0x0000010000000000 : DWord).getLsbD 40 = true) ∧
    (∀ k, 40 ≤ k → k < 48 → (0x00FF00FFFFFFFFE0 : DWord).getLsbD k = false) :=
  ⟨rfl, by decide, by decide, by intro k h1 h2; interval_cases k <;> rfl⟩

theorem witness_FaultyBaseIsStoredAndStopsTheWalk :
    let s := (launch 7 [(0, 0x8), (1, 0x100)]).withEnv { Env.atReset with el := .el1, ttbcrEAE := true }
    Reaches .write s .ttbr0 ∧ Passes (.mcrrA32 .al 0 1) s ∧ misaligned64 (s.reg 1 ++ s.reg 0) s.env.ttbcrT0SZ = true ∧
    misaligned64 (s.reg 1 ++ s.reg 2) s.env.ttbcrT0SZ = false ∧ (s.reg 1 ++ s.reg 2).getLsbD 40 = true :=
  ⟨⟨rfl, rfl⟩, .inl rfl, by decide, by decide, by decide⟩

theorem witness_WalkTakesAsidAndCnpFromTheCell :
    misaligned64 0x0042000080001001 0 = false ∧ Config.atReset.cnpImplemented = true ∧
    (0x0042000080001001 : DWord).getLsbD 0 = true ∧ addressSizeFault64 0x0042000080001001 = false := by decide

/-- Bits [x-1:7] at both ends of the range for N = 0, an aligned value with the IMP bit set, and N = 7, where the range is
empty. -/
theorem witness_WalkTakesBaseAttributesAndImpFromTheCell :
    Env.atReset.ttbcrEAE = false ∧
    (7 ≤ 13 ∧ 13 < 14 - (0 : Fin 8).val ∧ (0x2000 : DWord).getLsbD 13 = true) ∧
    (7 ≤ 7 ∧ 7 < 14 - (0 : Fin 8).val ∧ (0x80 : DWord).getLsbD 7 = true) ∧
    (∀ k, 7 ≤ k → k < 14 - (0 : Fin 8).val → (0x80004006 : DWord).getLsbD k = false) ∧
    (∀ k, 7 ≤ k → k < 14 - (7 : Fin 8).val → (0x80004080 : DWord).getLsbD k = false) :=
  ⟨rfl, by decide, by decide, by intro k h1 (h2 : k < 14); interval_cases k <;> rfl,
    by intro k h1 (h2 : k < 7); omega⟩

theorem witness_AbsentRegisterHasNoStorage :
    ((launch 7 []).withConfig { Config.atReset with el1AArch32Capable := false }).config.el1AArch32Capable = false := rfl

theorem witness_WalkStartsFromTheSelectedCell :
    (launch 7 []).config.el1AArch32Capable = true ∧ (launchFailed .el0).env.el = .el0 ∧
    (launch 7 []).env.el = .el1 ∧ ¬ ((launch 7 []).config.haveEL3 = true ∧ (launch 7 []).config.el3AArch32 = true) ∧
    (launchFailed .el2).env.el = .el2 ∧
    (launchEl3 true .high 1 2).config.haveEL3 = true ∧ (launchEl3 true .high 1 2).config.el3AArch32 = true ∧
    (launchEl3 false .high 1 2).env.el = .el3 ∧ (launchEl3 false .high 1 2).env.scrNS = false ∧
    (launchEl3 true .high 1 2).env.scrNS = true := by decide

end Sys2Proof.Tests
end

/-! PROOFS of the family 10_state.md. First the rules about the shared operations that these statements need (the bits of a
cell value, a register after a write, the four data movements, the outcome table as the skeleton), then the two
statements. -/

namespace Sys2Proof.Machine

/-! ### The two words of a cell value -/

@[simp] theorem lowWord_joinWords (hi lo : Word) : lowWord (joinWords hi lo) = lo :=
  BitVec.extractLsb'_append_eq_right

@[simp] theorem highWord_joinWords (hi lo : Word) : highWord (joinWords hi lo) = hi :=
  BitVec.extractLsb'_append_eq_left

@[simp] theorem joinWords_highWord_lowWord (v : DWord) : joinWords (highWord v) (lowWord v) = v := by
  calc highWord v ++ lowWord v
      = v.extractLsb' 0 64 := BitVec.extractLsb'_append_extractLsb'_eq_extractLsb' rfl
    _ = v := BitVec.extractLsb'_eq_self

/-- The bits that may read as zero stand in the high word, so the low word reads as it is stored (R30). -/
@[simp] theorem lowWord_res0View (b : Res0Top) (v : DWord) : lowWord (res0View b v) = lowWord v := by
  cases b with
  | readAsWritten => rfl
  | readsZero =>
    have low_mask : lowWord (0x00FFFFFFFFFFFFFF : DWord) = BitVec.allOnes 32 := by decide
    calc lowWord (v &&& 0x00FFFFFFFFFFFFFF)
        = lowWord v &&& lowWord 0x00FFFFFFFFFFFFFF := BitVec.extractLsb'_and
      _ = lowWord v := by rw [low_mask, BitVec.and_allOnes]

theorem readCell_of_readAsWritten {s : State} (h : s.config.res0TopBehaviour = .readAsWritten) (c : CellName) :
    s.readCell c = s.cell c := by
  simp [State.readCell, res0View, h]

/-! ### A register after a write -/

@[simp] theorem setReg_reg_same (s : State) (i : RegNum) (v : Word) : (s.setReg i v).reg i = v := by
  simp [State.reg]

theorem setReg_reg_other (s : State) {i j : RegNum} (v : Word) (h : j ≠ i) : (s.setReg i v).reg j = s.reg j := by
  have hne : (i : Nat) ≠ j := fun e => h (Fin.ext e.symm)
  simp [State.reg, Vector.getElem_set_ne, hne]

/-! ### What each data movement leaves in the registers and the cells -/

section Movements
variable (t t2 : RegNum) (c : CellName) (s : State)

@[simp] theorem moveToReg_reg : (moveToReg t c s).reg t = lowWord (s.cell c) := by
  simp [moveToReg, State.readCell]

@[simp] theorem moveToReg_cell (c' : CellName) : (moveToReg t c s).cell c' = s.cell c' := by
  simp [moveToReg]

@[simp] theorem moveFromReg_cell : (moveFromReg t c s).cell c = joinWords (highWord (s.cell c)) (s.reg t) := by
  simp [moveFromReg, withLowWord]

@[simp] theorem moveToPair_reg_low : (moveToPair t t2 c s).reg t = lowWord (s.readCell c) := by
  simp [moveToPair]

theorem moveToPair_reg_high (h : t ≠ t2) : (moveToPair t t2 c s).reg t2 = highWord (s.readCell c) := by
  simp [moveToPair, setReg_reg_other _ _ h.symm]

@[simp] theorem moveToPair_cell (c' : CellName) : (moveToPair t t2 c s).cell c' = s.cell c' := by
  simp [moveToPair]

@[simp] theorem moveFromPair_cell : (moveFromPair t t2 c s).cell c = joinWords (s.reg t2) (s.reg t) := by
  simp [moveFromPair]

end Movements

/-! ### The outcome table is what the skeleton computes -/

/-- A row of R75's table as the skeleton answers it. -/
def AccessResult.target (ec : Nat) : AccessResult → Except Fault CellName
  | .undefined => .error .undefined
  | .trapAArch64 => .error (.aarch64SystemAccessTrap .el2 ec)
  | .trapHyp => .error (.hypTrap ec)
  | .reaches c => .ok c

/-- R75 against R66: the chain of four tests traps exactly as the two rows of EL1 do. -/
theorem trapCheckEL1_eq_table (d : Direction) (ec : Nat) (s : State) :
    trapCheckEL1 d ec s =
      if s.inputs.el2Enabled && !s.config.el2AArch32 && ctl64 d s then some (.aarch64SystemAccessTrap .el2 ec)
      else if s.inputs.el2Enabled && s.config.el2AArch32 && ctl32 d s then some (.hypTrap ec)
      else none := by
  have h64 : ctl64 d s = (s.env.hstrEL2T2 || s.env.hcrEL2Control d) := by cases d <;> rfl
  have h32 : ctl32 d s = (s.env.hstrT2 || s.env.hcrControl d) := by cases d <;> rfl
  unfold trapCheckEL1
  rw [h64, h32]
  cases s.inputs.el2Enabled <;> cases s.config.el2AArch32 <;> simp
  · cases s.env.hstrEL2T2 <;> simp
  · cases s.env.hstrT2 <;> simp

/-- R75's table is the skeleton of R67, level by level. -/
theorem accessTarget_eq_table (d : Direction) (ec : Nat) (s : State) :
    accessTarget d ec s = (accessTable d s).target ec := by
  unfold accessTarget accessTable
  cases hel : s.env.el with
  | el0 => rfl
  | el1 =>
    simp only [trapCheckEL1_eq_table, selectedCell, selectInstance, hel]
    cases s.inputs.el2Enabled && !s.config.el2AArch32 && ctl64 d s with
    | true => rfl
    | false => cases s.inputs.el2Enabled && s.config.el2AArch32 && ctl32 d s <;> rfl
  | el2 => simp only [selectedCell, selectInstance, hel]; rfl
  | el3 =>
    cases hns : s.env.scrNS with
    | false =>
      cases d <;> cases hsig : s.inputs.cp15sdisable <;>
        simp [selectedCell, selectInstance, writeDisabled, hel, hns, hsig, AccessResult.target]
    | true => simp [selectedCell, selectInstance, writeDisabled, hel, hns, AccessResult.target]

theorem presentTarget_of_reaches {d : Direction} {s : State} {c : CellName} (h : Reaches d s c) (ec : Nat) :
    presentTarget d ec s = .ok c := by
  obtain ⟨hcap, htable⟩ := h
  rw [presentTarget_of_present hcap, accessTarget_eq_table, htable, AccessResult.target]

/-- An admitted access that passes its condition and reaches a cell does its data movement on that cell. -/
theorem exec_of_reaches {i : Instr} {s : State} {c : CellName} (ha : i.admitted = true)
    (hr : Reaches i.direction s c) (hp : Passes i s) : exec i s = .next (i.movement c s).advancePc := by
  rw [exec_eq_access, (formRefusal_eq_none_iff i).2 ha]
  simp [unlessRefused, access, presentTarget_of_reaches hr, (passed_iff i s).2 hp]

/-! ### The widths of the accesses -/

section Widths
variable {i : Instr} {t t2 : RegNum} {s : State} {c : CellName}

theorem exec_moveToReg (ha : i.admitted = true) (hm : i.movement = moveToReg t) (hr : Reaches i.direction s c)
    (hp : Passes i s) :
    ∃ u, exec i s = .next u ∧ u.reg t = lowWord (s.cell c) ∧ ∀ c', u.cell c' = s.cell c' :=
  ⟨_, exec_of_reaches ha hr hp, by simp [hm], by simp [hm]⟩

theorem exec_moveFromReg (ha : i.admitted = true) (hm : i.movement = moveFromReg t) (hr : Reaches i.direction s c)
    (hp : Passes i s) :
    ∃ u, exec i s = .next u ∧ lowWord (u.cell c) = s.reg t ∧ highWord (u.cell c) = highWord (s.cell c) :=
  ⟨_, exec_of_reaches ha hr hp, by simp [hm], by simp [hm]⟩

theorem exec_moveToPair (ha : i.admitted = true) (hm : i.movement = moveToPair t t2) (hne : t ≠ t2)
    (hr : Reaches i.direction s c) (hp : Passes i s) :
    ∃ u, exec i s = .next u ∧ joinWords (u.reg t2) (u.reg t) = s.readCell c ∧ ∀ c', u.cell c' = s.cell c' :=
  ⟨_, exec_of_reaches ha hr hp, by simp [hm, moveToPair_reg_high t t2 c s hne], by simp [hm]⟩

theorem exec_moveFromPair (ha : i.admitted = true) (hm : i.movement = moveFromPair t t2)
    (hr : Reaches i.direction s c) (hp : Passes i s) :
    ∃ u, exec i s = .next u ∧ u.cell c = joinWords (s.reg t2) (s.reg t) :=
  ⟨_, exec_of_reaches ha hr hp, by simp [hm]⟩

end Widths

/-- Settles O25: each form is one data movement on the cell it reaches, and the movement says which bits go where. -/
theorem accessWidthsAre32And64Bits : Obligations.AccessWidthsAre32And64Bits := by
  intro q t t2 s c ht ht2
  refine ⟨fun hr => ?mrc, fun hr => ?mcr, fun hne hraw hr => ?mrrc, fun hr => ?mcrr⟩ <;>
    simp only [List.forall_mem_cons, List.not_mem_nil, false_implies, implies_true, and_true]
  case mrc =>
    exact ⟨exec_moveToReg (by simp [Instr.admitted, ht]) rfl hr,
      exec_moveToReg (by simp [Instr.admitted, ht]) rfl hr⟩
  case mcr =>
    exact ⟨exec_moveFromReg (by simp [Instr.admitted, ht]) rfl hr,
      exec_moveFromReg (by simp [Instr.admitted, ht]) rfl hr⟩
  case mrrc =>
    rw [← readCell_of_readAsWritten hraw]
    exact ⟨exec_moveToPair (by simp [Instr.admitted, ht, ht2, hne]) rfl hne hr,
      exec_moveToPair (by simp [Instr.admitted, ht, ht2, hne]) rfl hne hr⟩
  case mcrr =>
    exact ⟨exec_moveFromPair (by simp [Instr.admitted, ht, ht2]) rfl hr,
      exec_moveFromPair (by simp [Instr.admitted, ht, ht2]) rfl hr⟩

/-! ### Changes of the state that exec does not see -/

/-- A change of the state that neither the tests nor the condition see, and that commutes with pc + 4 and with the data
movement on the cell reached, commutes with exec. -/
theorem exec_commutes {f : State → State} {i : Instr} {s : State}
    (htarget : presentTarget i.direction i.ec (f s) = presentTarget i.direction i.ec s)
    (hpassed : i.passed (f s) = i.passed s) (hpc : ∀ u : State, (f u).advancePc = f u.advancePc)
    (hmove : ∀ c, presentTarget i.direction i.ec s = .ok c → i.movement c (f s) = f (i.movement c s)) :
    exec i (f s) = mapNext f (exec i s) := by
  rw [exec_eq_access, exec_eq_access]
  cases i.formRefusal with
  | some why => rfl
  | none =>
    simp only [unlessRefused, access, htarget, hpassed]
    cases htgt : presentTarget i.direction i.ec s with
    | error e => cases i.passed s <;> rfl
    | ok c => cases i.passed s <;> simp [mapNext, hpc, hmove c htgt]

/-! ### SCR.NS below EL3 -/

theorem movement_withEnv (i : Instr) (c : CellName) (e : Env) (s : State) :
    i.movement c (s.withEnv e) = (i.movement c s).withEnv e := by
  cases i <;> cases c <;> rfl

/-- The rows of R75's table read SCR.NS at EL3 only. -/
theorem accessTable_withScrNS {s : State} (h : s.env.el ≠ .el3) (d : Direction) (b : Bool) :
    accessTable d (s.withEnv { s.env with scrNS := b }) = accessTable d s := by
  cases hel : s.env.el with
  | el3 => exact absurd hel h
  | _ => simp [accessTable, State.withEnv, hel, ctl64, ctl32]

theorem presentTarget_withScrNS {s : State} (h : s.env.el ≠ .el3) (d : Direction) (ec : Nat) (b : Bool) :
    presentTarget d ec (s.withEnv { s.env with scrNS := b }) = presentTarget d ec s := by
  simp only [presentTarget, accessTarget_eq_table, accessTable_withScrNS h]
  rfl

theorem exec_withScrNS {s : State} (h : s.env.el ≠ .el3) (i : Instr) (b : Bool) :
    exec i (s.withEnv { s.env with scrNS := b }) =
      mapNext (State.withEnv { s.env with scrNS := b }) (exec i s) :=
  exec_commutes (presentTarget_withScrNS h i.direction i.ec b) (by cases i <;> rfl) (fun _ => rfl)
    (fun c _ => movement_withEnv i c _ s)

/-! ### SCR.NS at EL3 -/

/-- The cell SCR.NS selects at EL3 (R32). -/
theorem cell_eq_of_el3 {s : State} (hel : s.env.el = .el3) {d : Direction} {ec : Nat} {c : CellName}
    (h : presentTarget d ec s = .ok c) : c = if s.env.scrNS then .ttbr0NS else .ttbr0S := by
  have hsel := accessTarget_ok (presentTarget_ok h).2
  rw [hel] at hsel
  exact (Option.some.inj hsel).symm

theorem reaches_read_of_el3 {s : State} (hcap : s.config.el1AArch32Capable = true) (hel : s.env.el = .el3) :
    Reaches .read s (if s.env.scrNS then .ttbr0NS else .ttbr0S) := by
  refine ⟨hcap, ?_⟩
  cases hns : s.env.scrNS <;> simp [accessTable, hel, hns]

theorem reaches_write_of_el3 {s : State} (hcap : s.config.el1AArch32Capable = true) (hel : s.env.el = .el3)
    (henabled : ¬ (s.env.scrNS = false ∧ s.inputs.cp15sdisable = .high)) :
    Reaches .write s (if s.env.scrNS then .ttbr0NS else .ttbr0S) := by
  refine ⟨hcap, ?_⟩
  cases hns : s.env.scrNS <;> cases hsig : s.inputs.cp15sdisable <;> simp_all [accessTable]

theorem setCell_comm {s : State} {c c' : CellName} (h : c ≠ c') (v v' : DWord) :
    (s.setCell c v).setCell c' v' = (s.setCell c' v').setCell c v := by
  cases c <;> cases c' <;> simp_all [State.setCell]

theorem setReg_setCell (s : State) (c : CellName) (v : DWord) (t : RegNum) (w : Word) :
    (s.setCell c v).setReg t w = (s.setReg t w).setCell c v := by
  cases c <;> rfl

theorem readCell_setCell_other (s : State) {c c' : CellName} (h : c' ≠ c) (v : DWord) :
    (s.setCell c v).readCell c' = s.readCell c' := by
  simp [State.readCell, setCell_cell_other s c v c' h]

/-- A data movement neither reads nor writes another cell than its own. -/
theorem movement_withCell_other (i : Instr) {c c' : CellName} (h : c' ≠ c) (v : DWord) (s : State) :
    i.movement c' (s.withCell c v) = (i.movement c' s).withCell c v := by
  have toReg (t : RegNum) : moveToReg t c' (s.setCell c v) = (moveToReg t c' s).setCell c v := by
    simp only [moveToReg, readCell_setCell_other s h, setReg_setCell]
  have fromReg (t : RegNum) : moveFromReg t c' (s.setCell c v) = (moveFromReg t c' s).setCell c v := by
    simp only [moveFromReg, setCell_cell_other s c v c' h, setCell_reg, setCell_comm h.symm]
  have toPair (t t2 : RegNum) : moveToPair t t2 c' (s.setCell c v) = (moveToPair t t2 c' s).setCell c v := by
    simp only [moveToPair, readCell_setCell_other s h, setReg_setCell]
  have fromPair (t t2 : RegNum) : moveFromPair t t2 c' (s.setCell c v) = (moveFromPair t t2 c' s).setCell c v := by
    simp only [moveFromPair, setCell_reg, setCell_comm h.symm]
  cases i with
  | mrcA32 _ t | mrcT32 t => exact toReg t
  | mcrA32 _ t | mcrT32 t => exact fromReg t
  | mrrcA32 _ t t2 | mrrcT32 t t2 => exact toPair t t2
  | mcrrA32 _ t t2 | mcrrT32 t t2 => exact fromPair t t2

theorem presentTarget_withCell (d : Direction) (ec : Nat) (c : CellName) (v : DWord) (s : State) :
    presentTarget d ec (s.withCell c v) = presentTarget d ec s := by
  cases c <;> rfl

theorem exec_withCell_of_el3 {s : State} (hel : s.env.el = .el3) (i : Instr) {c : CellName} (v : DWord)
    (hc : c ≠ if s.env.scrNS then .ttbr0NS else .ttbr0S) :
    exec i (s.withCell c v) = mapNext (State.withCell c v) (exec i s) := by
  refine exec_commutes (presentTarget_withCell i.direction i.ec c v s) ?_ ?_ fun c' htgt => ?_
  · cases i <;> cases c <;> rfl
  · intro u
    cases c <;> rfl
  · exact movement_withCell_other i (cell_eq_of_el3 hel htgt ▸ hc.symm) v s

/-- Settles O26: below EL3 SCR.NS is in none of the tests; at EL3 the access is one data movement on the cell it
selects. -/
theorem scrNsSelectsTheCellAtEl3Only : Obligations.ScrNsSelectsTheCellAtEl3Only := by
  intro i s
  refine ⟨fun hel b => exec_withScrNS hel i b, fun hel => ⟨fun c v hc => exec_withCell_of_el3 hel i v hc,
    fun q t ht hcap => ⟨fun hp => ?mrc, fun hp hen => ?mcr⟩⟩⟩
  case mrc =>
    obtain ⟨u, hu, hreg, -⟩ := exec_moveToReg (i := .mrcA32 q t) (by simp [Instr.admitted, ht]) rfl
      (reaches_read_of_el3 hcap hel) hp
    exact ⟨u, hu, hreg⟩
  case mcr =>
    obtain ⟨u, hu, hlow, -⟩ := exec_moveFromReg (i := .mcrA32 q t) (by simp [Instr.admitted, ht]) rfl
      (reaches_write_of_el3 hcap hel hen) hp
    exact ⟨u, hu, hlow⟩

end Sys2Proof.Machine

/-! PROOFS of the family 20_memory.md. First the attribute fields of the 32-bit layout by their bits and the two value
tables by the bits of their codes, then the statement. -/

namespace Sys2Proof.Machine

/-! ### The attribute fields by their bits -/

/-- A one-bit field is its bit. -/
theorem extractLsb'_one_eq_ofBool {w : Nat} (v : BitVec w) (i : Nat) :
    v.extractLsb' i 1 = BitVec.ofBool (v.getLsbD i) := by
  apply BitVec.eq_of_getLsbD_eq
  intro k hk
  obtain rfl : k = 0 := by omega
  simp

/-- IRGN is split: its high bit stands below its low bit (R20). -/
theorem fields32_irgn (cell : DWord) :
    (fields32 cell).irgn = BitVec.ofBool (cell.getLsbD 0) ++ BitVec.ofBool (cell.getLsbD 6) := by
  simp only [fields32, extractLsb'_one_eq_ofBool]

/-- RGN stands in natural order (R22). -/
theorem fields32_rgn (cell : DWord) :
    (fields32 cell).rgn = BitVec.ofBool (cell.getLsbD 4) ++ BitVec.ofBool (cell.getLsbD 3) := by
  calc (fields32 cell).rgn
      = cell.extractLsb' 4 1 ++ cell.extractLsb' 3 1 :=
        (BitVec.extractLsb'_append_extractLsb'_eq_extractLsb' (start₁ := 3) (len₁ := 1) (len₂ := 1) rfl).symm
    _ = BitVec.ofBool (cell.getLsbD 4) ++ BitVec.ofBool (cell.getLsbD 3) := by simp only [extractLsb'_one_eq_ofBool]

theorem fields32_s (cell : DWord) : (fields32 cell).s = BitVec.ofBool (cell.getLsbD 1) :=
  extractLsb'_one_eq_ofBool cell 1

theorem fields32_nos (cell : DWord) : (fields32 cell).nos = BitVec.ofBool (cell.getLsbD 5) :=
  extractLsb'_one_eq_ofBool cell 5

/-! ### The value tables by the bits of the code -/

/-- A function of two bits that has the four entries of the tables of R20 and R22 is the cacheability of their code. -/
theorem cacheabilityOf_bits {code : Bool → Bool → Cacheability} (h00 : code false false = .nonCacheable)
    (h01 : code false true = .writeBackWriteAllocate) (h10 : code true false = .writeThrough)
    (h11 : code true true = .writeBackNoWriteAllocate) (hi lo : Bool) :
    cacheabilityOf (BitVec.ofBool hi ++ BitVec.ofBool lo) = code hi lo := by
  cases hi with
  | false =>
    cases lo with
    | false => exact h00.symm
    | true => exact h01.symm
  | true =>
    cases lo with
    | false => exact h10.symm
    | true => exact h11.symm

/-- NOS is looked at only where S is set (R21, R24). -/
theorem shareabilityOf_bits (s nos : Bool) :
    shareabilityOf (BitVec.ofBool s) (BitVec.ofBool nos) =
      if s = false then .nonShareable else if nos = false then .outerShareable else .innerShareable := by
  cases s with
  | false => rfl
  | true => cases nos <;> rfl

/-! ### The attributes of the walk -/

/-- Settles O39: each attribute is a value table at the bits of its field; the 64-bit layout hands over none by
definition. -/
theorem walkAttributesFollowTheBits : Obligations.WalkAttributesFollowTheBits := by
  intro cell code
  refine ⟨congrArg some ?_, rfl⟩
  have code_eq := cacheabilityOf_bits (code := code) rfl rfl rfl rfl
  simp only [walkAttrs32, fields32_irgn, fields32_rgn, fields32_s, fields32_nos, code_eq, shareabilityOf_bits]

end Sys2Proof.Machine


/-! PROOFS of the family 40_system_register_access.md. First what an access comes to by the answer of the skeleton, then
what the skeleton answers at EL1 and at the other levels, then the statement. -/

namespace Sys2Proof.Machine

/-! ### An access by the answer of the skeleton -/

section Answers
variable {i : Instr} {s : State}

/-- An admitted access whose condition passes, where the register is present, is the answer of the skeleton: nothing else
stands before its tests (R65). -/
theorem exec_of_target_error {f : Fault} (ha : i.admitted = true) (hp : Passes i s)
    (hcap : s.config.el1AArch32Capable = true) (htgt : accessTarget i.direction i.ec s = .error f) :
    exec i s = .fault f := by
  rw [exec_eq_access, (formRefusal_eq_none_iff i).2 ha]
  simp [unlessRefused, access, presentTarget_of_present hcap, htgt, (passed_iff i s).2 hp, raise]

theorem exec_of_target_ok {c : CellName} (ha : i.admitted = true) (hp : Passes i s)
    (hcap : s.config.el1AArch32Capable = true) (htgt : accessTarget i.direction i.ec s = .ok c) :
    exec i s = .next (i.movement c s).advancePc := by
  rw [exec_eq_access, (formRefusal_eq_none_iff i).2 ha]
  simp [unlessRefused, access, presentTarget_of_present hcap, htgt, (passed_iff i s).2 hp]

end Answers

/-! ### The skeleton at EL1 and elsewhere -/

section Levels
variable {d : Direction} {ec : Nat} {s : State}

theorem selectedCell_of_ne_el0 (hel : s.env.el ≠ .el0) : ∃ c, selectedCell s = .ok c := by
  cases h : s.env.el with
  | el0 => exact absurd h hel
  | el1 | el2 | el3 => simp [selectedCell, selectInstance, h]

theorem accessTarget_of_trapped {f : Fault} (hel : s.env.el = .el1) (htrap : trapCheckEL1 d ec s = some f) :
    accessTarget d ec s = .error f := by
  simp [accessTarget, hel, htrap]

theorem accessTarget_of_not_trapped (hel : s.env.el = .el1) (htrap : trapCheckEL1 d ec s = none) :
    ∃ c, accessTarget d ec s = .ok c := by
  obtain ⟨c, hc⟩ := selectedCell_of_ne_el0 (s := s) (by simp [hel])
  exact ⟨c, by simp [accessTarget, hel, htrap, hc]⟩

/-- Outside EL1 the trap check is not run: what the skeleton raises is `Undefined` (R66, R67). -/
theorem accessTarget_error_of_ne_el1 {f : Fault} (hel : s.env.el ≠ .el1) (h : accessTarget d ec s = .error f) :
    f = .undefined := by
  cases hlevel : s.env.el with
  | el0 => simpa [accessTarget, hlevel] using h.symm
  | el1 => exact absurd hlevel hel
  | el2 =>
    obtain ⟨c, hc⟩ := selectedCell_of_ne_el0 (s := s) (by simp [hlevel])
    simp [accessTarget, hlevel, hc] at h
  | el3 =>
    obtain ⟨c, hc⟩ := selectedCell_of_ne_el0 (s := s) (by simp [hlevel])
    cases hw : writeDisabled d s with
    | true => simpa [accessTarget, hlevel, hw] using h.symm
    | false => simp [accessTarget, hlevel, hw, hc] at h

end Levels

/-! ### The trap chain -/

section Chain
variable {i : Instr} {s : State}

/-- At EL1 the trap check decides: its trap ends the access, and where it raises none the access completes. -/
theorem exec_fault_of_trapCheckEL1 {f : Fault} (ha : i.admitted = true) (hp : Passes i s)
    (hcap : s.config.el1AArch32Capable = true) (hel : s.env.el = .el1)
    (htrap : trapCheckEL1 i.direction i.ec s = some f) : exec i s = .fault f :=
  exec_of_target_error ha hp hcap (accessTarget_of_trapped hel htrap)

theorem exec_next_of_trapCheckEL1 (ha : i.admitted = true) (hp : Passes i s)
    (hcap : s.config.el1AArch32Capable = true) (hel : s.env.el = .el1)
    (htrap : trapCheckEL1 i.direction i.ec s = none) : ∃ t, exec i s = .next t := by
  obtain ⟨c, hc⟩ := accessTarget_of_not_trapped hel htrap
  exact ⟨_, exec_of_target_ok ha hp hcap hc⟩

theorem exec_fault_of_ne_el1 {f : Fault} (ha : i.admitted = true) (hp : Passes i s)
    (hcap : s.config.el1AArch32Capable = true) (hel : s.env.el ≠ .el1) (h : exec i s = .fault f) : f = .undefined := by
  cases htgt : accessTarget i.direction i.ec s with
  | ok c => simp [exec_of_target_ok ha hp hcap htgt] at h
  | error g =>
    rw [exec_of_target_error ha hp hcap htgt] at h
    cases h
    exact accessTarget_error_of_ne_el1 hel htgt

end Chain

/-- Settles O14: at EL1 the outcome is the first of the four tests that holds, and at every other level the skeleton
raises nothing but `Undefined`. -/
theorem trapChainRunsAtEl1Only : Obligations.TrapChainRunsAtEl1Only := by
  intro i s ha hp hcap t64 t32
  have h64 : t64 = s.env.hcrEL2Control i.direction := by simp only [t64]; cases i.direction <;> rfl
  have h32 : t32 = s.env.hcrControl i.direction := by simp only [t32]; cases i.direction <;> rfl
  rw [h64, h32]
  refine ⟨fun hel => ?atEl1, fun hel ec target => ⟨fun h => ?hyp, fun h => ?aarch64⟩⟩
  case atEl1 =>
    split_ifs with hstrEL2 hstr hcrEL2 hcr
    · exact exec_fault_of_trapCheckEL1 ha hp hcap hel (by simp only [trapCheckEL1, if_pos hstrEL2])
    · exact exec_fault_of_trapCheckEL1 ha hp hcap hel (by simp only [trapCheckEL1, if_neg hstrEL2, if_pos hstr])
    · exact exec_fault_of_trapCheckEL1 ha hp hcap hel
        (by simp only [trapCheckEL1, if_neg hstrEL2, if_neg hstr, if_pos hcrEL2])
    · exact exec_fault_of_trapCheckEL1 ha hp hcap hel
        (by simp only [trapCheckEL1, if_neg hstrEL2, if_neg hstr, if_neg hcrEL2, if_pos hcr])
    · exact exec_next_of_trapCheckEL1 ha hp hcap hel
        (by simp only [trapCheckEL1, if_neg hstrEL2, if_neg hstr, if_neg hcrEL2, if_neg hcr])
  case hyp => cases exec_fault_of_ne_el1 ha hp hcap hel h
  case aarch64 => cases exec_fault_of_ne_el1 ha hp hcap hel h

end Sys2Proof.Machine


/-! PROOFS of the family 60_exceptions.md. First an exceptional outcome of exec as the error of the tests, then when the
tests raise each of the three outcomes, then the two statements. -/

namespace Sys2Proof.Machine

/-! ### An exceptional outcome is the error of the tests -/

/-- R80: an access ends in an exceptional outcome exactly where its form is admitted, its condition passes and the tests
raise that outcome. -/
theorem exec_eq_fault_iff {i : Instr} {s : State} {f : Fault} :
    exec i s = .fault f ↔
      i.admitted = true ∧ Passes i s ∧ presentTarget i.direction i.ec s = .error f := by
  rw [exec_eq_access, ← formRefusal_eq_none_iff, ← passed_iff]
  cases i.formRefusal with
  | some why => simp [unlessRefused]
  | none =>
    simp only [unlessRefused, access]
    cases presentTarget i.direction i.ec s <;> cases i.passed s <;> simp [raise]

/-- The tests raise `Undefined` for want of the register (R87), or the skeleton does. -/
theorem presentTarget_eq_undefined_iff {d : Direction} {ec : Nat} {s : State} :
    presentTarget d ec s = .error .undefined ↔
      s.config.el1AArch32Capable = false ∨ accessTarget d ec s = .error .undefined := by
  cases hcap : s.config.el1AArch32Capable with
  | false => simp [presentTarget_of_absent hcap]
  | true => simp [presentTarget_of_present hcap]

/-- A trap is raised only where the register is present, and there by the skeleton. -/
theorem presentTarget_eq_trap_iff {d : Direction} {ec : Nat} {s : State} {f : Fault} (hf : f ≠ .undefined) :
    presentTarget d ec s = .error f ↔ s.config.el1AArch32Capable = true ∧ accessTarget d ec s = .error f := by
  cases hcap : s.config.el1AArch32Capable with
  | false => simp [presentTarget_of_absent hcap, hf.symm]
  | true => simp [presentTarget_of_present hcap]

/-! ### When the skeleton raises `Undefined` -/

theorem writeDisabled_iff (d : Direction) (s : State) :
    writeDisabled d s = true ↔ d = .write ∧ s.env.scrNS = false ∧ s.inputs.cp15sdisable = .high := by
  simp [writeDisabled, and_assoc]

theorem trapCheckEL1_ne_undefined (d : Direction) (ec : Nat) (s : State) :
    trapCheckEL1 d ec s ≠ some .undefined := by
  obtain h | ⟨-, -, h⟩ | ⟨-, -, h⟩ := trapCheckEL1_cases d ec s <;> simp [h]

/-- R81 (a) and (c): the skeleton raises `Undefined` at EL0 and for the disabled write at EL3, and nowhere else. -/
theorem accessTarget_eq_undefined_iff {d : Direction} {ec : Nat} {s : State} :
    accessTarget d ec s = .error .undefined ↔ s.env.el = .el0 ∨ s.env.el = .el3 ∧ writeDisabled d s = true := by
  cases hel : s.env.el with
  | el0 => simp [accessTarget, hel]
  | el1 =>
    cases htrap : trapCheckEL1 d ec s with
    | none =>
      obtain ⟨c, hc⟩ := accessTarget_of_not_trapped hel htrap
      simp [hc]
    | some f =>
      have hf : f ≠ .undefined := fun e => trapCheckEL1_ne_undefined d ec s (e ▸ htrap)
      simp [accessTarget_of_trapped hel htrap, hf]
  | el2 =>
    obtain ⟨c, hc⟩ := selectedCell_of_ne_el0 (s := s) (by simp [hel])
    simp [accessTarget, hel, hc]
  | el3 =>
    obtain ⟨c, hc⟩ := selectedCell_of_ne_el0 (s := s) (by simp [hel])
    cases hw : writeDisabled d s <;> simp [accessTarget, hel, hw, hc]

/-- Settles O16: the absent register is the tests' own `Undefined`, EL0 and the disabled write are the skeleton's. -/
theorem undefinedHasExactlyThreeCauses : Obligations.UndefinedHasExactlyThreeCauses := by
  intro i s ha hp
  rw [exec_eq_fault_iff, presentTarget_eq_undefined_iff, accessTarget_eq_undefined_iff, writeDisabled_iff]
  tauto

/-! ### When the skeleton raises a trap -/

/-- A trap of the skeleton is the trap of the check at EL1 (R66, R67). -/
theorem accessTarget_eq_trap_iff {d : Direction} {ec : Nat} {s : State} {f : Fault} (hf : f ≠ .undefined) :
    accessTarget d ec s = .error f ↔ s.env.el = .el1 ∧ trapCheckEL1 d ec s = some f := by
  refine ⟨fun h => ?raised, fun ⟨hel, htrap⟩ => accessTarget_of_trapped hel htrap⟩
  have hel : s.env.el = .el1 := by
    by_contra hel
    exact hf (accessTarget_error_of_ne_el1 hel h)
  refine ⟨hel, ?_⟩
  cases htrap : trapCheckEL1 d ec s with
  | none =>
    obtain ⟨c, hc⟩ := accessTarget_of_not_trapped hel htrap
    simp [hc] at h
  | some g =>
    rw [accessTarget_of_trapped hel htrap] at h
    exact congrArg some (Except.error.inj h)

/-- The controls of R82: T2, or TRVM for a read, or TVM for a write. -/
theorem ctl32_iff (d : Direction) (s : State) :
    ctl32 d s = true ↔
      s.env.hstrT2 = true ∨ (d = .read ∧ s.env.hcrTRVM = true) ∨ (d = .write ∧ s.env.hcrTVM = true) := by
  cases d <;> simp [ctl32]

/-- The controls of R83: the same three of the AArch64 pair. -/
theorem ctl64_iff (d : Direction) (s : State) :
    ctl64 d s = true ↔
      s.env.hstrEL2T2 = true ∨ (d = .read ∧ s.env.hcrEL2TRVM = true) ∨ (d = .write ∧ s.env.hcrEL2TVM = true) := by
  cases d <;> simp [ctl64]

theorem trapCheckEL1_eq_hypTrap_iff {d : Direction} {ec code : Nat} {s : State} :
    trapCheckEL1 d ec s = some (.hypTrap code) ↔
      (s.inputs.el2Enabled = true ∧ s.config.el2AArch32 = true ∧ ctl32 d s = true) ∧ code = ec := by
  rw [trapCheckEL1_eq_table]
  cases s.config.el2AArch32 <;> simp [and_assoc, eq_comm (a := ec) (b := code)]

theorem trapCheckEL1_eq_aarch64Trap_iff {d : Direction} {ec code : Nat} {target : EL} {s : State} :
    trapCheckEL1 d ec s = some (.aarch64SystemAccessTrap target code) ↔
      (s.inputs.el2Enabled = true ∧ s.config.el2AArch32 = false ∧ ctl64 d s = true) ∧ target = .el2 ∧ code = ec := by
  rw [trapCheckEL1_eq_table]
  cases s.config.el2AArch32 <;> simp [and_assoc, eq_comm (a := ec) (b := code), eq_comm (a := EL.el2) (b := target)]

/-- A trap of exec: an admitted access whose condition passes, where the register is present, at EL1, trapped by the
check. -/
theorem exec_eq_trap_iff {i : Instr} {s : State} {f : Fault} (hf : f ≠ .undefined) :
    exec i s = .fault f ↔
      (i.admitted = true ∧ Passes i s ∧ s.config.el1AArch32Capable = true) ∧ s.env.el = .el1 ∧
        trapCheckEL1 i.direction i.ec s = some f := by
  rw [exec_eq_fault_iff, presentTarget_eq_trap_iff hf, accessTarget_eq_trap_iff hf]
  tauto

/-- Settles O17: exec's trap is the check's trap, and the check raises each trap exactly under its controls. -/
theorem trapsAreRaisedExactlyUnderTheirControls : Obligations.TrapsAreRaisedExactlyUnderTheirControls := by
  intro i s ec target when32 when64
  have hyp : ∀ code, exec i s = .fault (.hypTrap code) ↔
      (i.admitted = true ∧ Passes i s ∧ s.config.el1AArch32Capable = true) ∧ when32 ∧ code = i.ec := by
    intro code
    rw [exec_eq_trap_iff (by simp), trapCheckEL1_eq_hypTrap_iff, ctl32_iff]
    tauto
  have aarch64 : ∀ level code, exec i s = .fault (.aarch64SystemAccessTrap level code) ↔
      (i.admitted = true ∧ Passes i s ∧ s.config.el1AArch32Capable = true) ∧ when64 ∧ level = .el2 ∧ code = i.ec := by
    intro level code
    rw [exec_eq_trap_iff (by simp), trapCheckEL1_eq_aarch64Trap_iff, ctl64_iff]
    tauto
  refine ⟨fun h => ((hyp ec).1 h).2, fun h => ((aarch64 target ec).1 h).2, fun ha hp hcap =>
    ⟨fun h32 => ?_, fun h64 => ?_⟩⟩
  · exact (hyp i.ec).2 ⟨⟨ha, hp, hcap⟩, h32, rfl⟩
  · exact (aarch64 .el2 i.ec).2 ⟨⟨ha, hp, hcap⟩, h64, rfl, rfl⟩

end Sys2Proof.Machine


/-! PROOFS of the encoding family, 30_encoding.md. First a field placed in a word and a field read from one, then a word
as its fields over the value of its row, then the byte order of instruction text, then the statements. -/

namespace Sys2Proof

/-! ### A field in a word -/

theorem getLsbD_place {n : Nat} (v : BitVec n) (lo k : Nat) (hk : k < 32) :
    (place v lo).getLsbD k = (decide (lo ≤ k) && v.getLsbD (k - lo)) := by
  by_cases h : lo ≤ k
  · simp [place, hk, h, show ¬ k < lo by omega]
  · simp [place, h, show k < lo by omega]

/-- A field read where it was placed. -/
theorem extractLsb'_place_same {n : Nat} (v : BitVec n) (lo : Nat) (h : lo + n ≤ 32) :
    (place v lo).extractLsb' lo n = v := by
  apply BitVec.eq_of_getLsbD_eq
  intro k hk
  simp [hk, getLsbD_place v lo (lo + k) (by omega)]

/-- A field read beside the place of another one holds nothing of it. -/
theorem extractLsb'_place_apart {n m lo lo' : Nat} (v : BitVec m) (hw : lo + n ≤ 32)
    (h : lo + n ≤ lo' ∨ lo' + m ≤ lo) : (place v lo').extractLsb' lo n = 0 := by
  apply BitVec.eq_of_getLsbD_eq
  intro k hk
  have outside : lo' ≤ lo + k → m ≤ lo + k - lo' := by omega
  by_cases hlo : lo' ≤ lo + k
  · simp [hk, getLsbD_place v lo' (lo + k) (by omega), BitVec.getLsbD_of_ge v _ (outside hlo)]
  · simp [hk, getLsbD_place v lo' (lo + k) (by omega), hlo]

/-- A field read from a word and placed again is the word under the field's mask. -/
theorem place_extractLsb' (w : Word) (lo n : Nat) :
    place (w.extractLsb' lo n) lo = w &&& place (BitVec.allOnes n) lo := by
  apply BitVec.eq_of_getLsbD_eq
  intro k hk
  rw [BitVec.getLsbD_and, getLsbD_place _ lo k hk, getLsbD_place _ lo k hk]
  by_cases hlo : lo ≤ k
  · simp [hlo, show lo + (k - lo) = k by omega, Bool.and_comm]
  · simp [hlo]

theorem toFin_regBits (t : RegNum) : (regBits t).toFin = t := by
  ext
  simp [regBits]

theorem regBits_toFin (v : BitVec 4) : regBits v.toFin = v := by
  simp [regBits]

/-! ### The word of an instruction: its fields over the value of its row -/

/-- A word's fields stand beside its fixed bits: they may be moved to its front (R58). -/
theorem encode32_eq_fields (c : BitVec 4) (l : BitVec 1) (t : RegNum) :
    encode32 c l t = place c 28 ||| place (regBits t) 12 ||| encode32 0 l 0 := by
  have hc : place (0 : BitVec 4) 28 = 0#32 := rfl
  have ht : place (regBits 0) 12 = 0#32 := rfl
  apply BitVec.eq_of_getLsbD_eq
  intro k _
  simp only [encode32, hc, ht, BitVec.getLsbD_or, BitVec.getLsbD_zero, Bool.false_or, Bool.or_false]
  cases (place c 28).getLsbD k <;> cases (place (regBits t) 12).getLsbD k <;> simp

theorem encode64_eq_fields (c : BitVec 4) (l : BitVec 1) (t t2 : RegNum) :
    encode64 c l t t2 = place c 28 ||| place (regBits t2) 16 ||| place (regBits t) 12 ||| encode64 0 l 0 0 := by
  have hc : place (0 : BitVec 4) 28 = 0#32 := rfl
  have ht : place (regBits 0) 12 = 0#32 := rfl
  have ht2 : place (regBits 0) 16 = 0#32 := rfl
  apply BitVec.eq_of_getLsbD_eq
  intro k _
  simp only [encode64, hc, ht, ht2, BitVec.getLsbD_or, BitVec.getLsbD_zero, Bool.false_or, Bool.or_false]
  cases (place c 28).getLsbD k <;> cases (place (regBits t) 12).getLsbD k <;>
    cases (place (regBits t2) 16).getLsbD k <;> simp

/-! ### The fields of an instruction's word -/

@[simp] theorem condField_encode32 (c : BitVec 4) (l : BitVec 1) (t : RegNum) : condField (encode32 c l t) = c := by
  have fixed : ∀ l : BitVec 1, (encode32 0 l 0).extractLsb' 28 4 = 0 := by decide
  rw [condField, encode32_eq_fields, BitVec.extractLsb'_or, BitVec.extractLsb'_or, fixed,
    extractLsb'_place_same c 28 (by decide), extractLsb'_place_apart (regBits t) (by decide) (by decide)]
  simp

@[simp] theorem rtField_encode32 (c : BitVec 4) (l : BitVec 1) (t : RegNum) : rtField (encode32 c l t) = t := by
  have fixed : ∀ l : BitVec 1, (encode32 0 l 0).extractLsb' 12 4 = 0 := by decide
  rw [rtField, encode32_eq_fields, BitVec.extractLsb'_or, BitVec.extractLsb'_or, fixed,
    extractLsb'_place_same (regBits t) 12 (by decide), extractLsb'_place_apart c (by decide) (by decide)]
  simpa using toFin_regBits t

section Pair
variable (c : BitVec 4) (l : BitVec 1) (t t2 : RegNum)

/-- A field of a 64-bit access's word, by its three variable fields. -/
theorem extractLsb'_encode64 {lo : Nat} (fixed : ∀ l : BitVec 1, (encode64 0 l 0 0).extractLsb' lo 4 = 0) :
    (encode64 c l t t2).extractLsb' lo 4 =
      (place c 28).extractLsb' lo 4 ||| (place (regBits t2) 16).extractLsb' lo 4 |||
        (place (regBits t) 12).extractLsb' lo 4 := by
  rw [encode64_eq_fields]
  simp only [BitVec.extractLsb'_or, fixed]
  exact BitVec.or_zero

@[simp] theorem condField_encode64 : condField (encode64 c l t t2) = c := by
  rw [condField, extractLsb'_encode64 c l t t2 (by decide), extractLsb'_place_same c 28 (by decide),
    extractLsb'_place_apart (regBits t2) (by decide) (by decide),
    extractLsb'_place_apart (regBits t) (by decide) (by decide)]
  simp

@[simp] theorem rtField_encode64 : rtField (encode64 c l t t2) = t := by
  rw [rtField, extractLsb'_encode64 c l t t2 (by decide), extractLsb'_place_same (regBits t) 12 (by decide),
    extractLsb'_place_apart (regBits t2) (by decide) (by decide),
    extractLsb'_place_apart c (by decide) (by decide)]
  simpa using toFin_regBits t

@[simp] theorem rt2Field_encode64 : rt2Field (encode64 c l t t2) = t2 := by
  rw [rt2Field, extractLsb'_encode64 c l t t2 (by decide), extractLsb'_place_same (regBits t2) 16 (by decide),
    extractLsb'_place_apart (regBits t) (by decide) (by decide),
    extractLsb'_place_apart c (by decide) (by decide)]
  simpa using toFin_regBits t2

end Pair

/-! ### The decoder on a word -/

theorem covers_iff (r : Row) (w : Word) : r.covers w = true ↔ w &&& r.mask = r.value := by
  simp [Row.covers]

/-- The word of an instruction matches, of the rows of its set, its own and no other. -/
theorem covers_encode {i : Instr} (hw : i.WellFormed) {r : Row} (hr : r ∈ rowsOf i.iset) :
    r.covers (encode i) = decide (r = i.row) := by
  have hrow : Laws.EncodeInRow.Statement i := by
    cases i with
    | mrcA32 c t => exact Laws.EncodeInRow.mrcA32 c t
    | mcrA32 c t => exact Laws.EncodeInRow.mcrA32 c t
    | mrrcA32 c t t2 => exact Laws.EncodeInRow.mrrcA32 c t t2
    | mcrrA32 c t t2 => exact Laws.EncodeInRow.mcrrA32 c t t2
    | mrcT32 t => exact Laws.EncodeInRow.mrcT32 t
    | mcrT32 t => exact Laws.EncodeInRow.mcrT32 t
    | mrrcT32 t t2 => exact Laws.EncodeInRow.mrrcT32 t t2
    | mcrrT32 t t2 => exact Laws.EncodeInRow.mcrrT32 t t2
  rw [Bool.eq_iff_iff, hrow hw r hr, decide_eq_true_iff]

theorem covers_encode_a32 {i : Instr} (hi : i.iset = .a32) (hw : i.WellFormed) :
    Row.mrcA32.covers (encode i) = decide (Row.mrcA32 = i.row) ∧
    Row.mcrA32.covers (encode i) = decide (Row.mcrA32 = i.row) ∧
    Row.mrrcA32.covers (encode i) = decide (Row.mrrcA32 = i.row) ∧
    Row.mcrrA32.covers (encode i) = decide (Row.mcrrA32 = i.row) := by
  refine ⟨covers_encode hw ?_, covers_encode hw ?_, covers_encode hw ?_, covers_encode hw ?_⟩ <;> simp [hi, rowsOf]

theorem covers_encode_t32 {i : Instr} (hi : i.iset = .t32) (hw : i.WellFormed) :
    Row.mrcT32.covers (encode i) = decide (Row.mrcT32 = i.row) ∧
    Row.mcrT32.covers (encode i) = decide (Row.mcrT32 = i.row) ∧
    Row.mrrcT32.covers (encode i) = decide (Row.mrrcT32 = i.row) ∧
    Row.mcrrT32.covers (encode i) = decide (Row.mcrrT32 = i.row) := by
  refine ⟨covers_encode hw ?_, covers_encode hw ?_, covers_encode hw ?_, covers_encode hw ?_⟩ <;> simp [hi, rowsOf]

/-- The decoder's chain of tests stops at the instruction's own row, with the instruction's own fields. -/
theorem decodeWord_encode {i : Instr} (hw : i.WellFormed) : decodeWord i.iset (encode i) = .ok i := by
  cases i with
  | mrcA32 c t =>
    obtain ⟨(h1 : _ = true), -⟩ := covers_encode_a32 rfl hw
    have hc : c.legal = true := hw
    simp only [encode] at h1
    simp [Instr.iset, decodeWord, decodeA32, encode, hc, h1]
  | mcrA32 c t =>
    obtain ⟨(h1 : _ = false), (h2 : _ = true), -⟩ := covers_encode_a32 rfl hw
    have hc : c.legal = true := hw
    simp only [encode] at h1 h2
    simp [Instr.iset, decodeWord, decodeA32, encode, hc, h1, h2]
  | mrrcA32 c t t2 =>
    obtain ⟨(h1 : _ = false), (h2 : _ = false), (h3 : _ = true), -⟩ := covers_encode_a32 rfl hw
    have hc : c.legal = true := hw
    simp only [encode] at h1 h2 h3
    simp [Instr.iset, decodeWord, decodeA32, encode, hc, h1, h2, h3]
  | mcrrA32 c t t2 =>
    obtain ⟨(h1 : _ = false), (h2 : _ = false), (h3 : _ = false), (h4 : _ = true)⟩ := covers_encode_a32 rfl hw
    have hc : c.legal = true := hw
    simp only [encode] at h1 h2 h3 h4
    simp [Instr.iset, decodeWord, decodeA32, encode, hc, h1, h2, h3, h4]
  | mrcT32 t =>
    obtain ⟨(h1 : _ = true), -⟩ := covers_encode_t32 rfl hw
    simp only [encode] at h1
    simp [Instr.iset, decodeWord, decodeT32, encode, h1]
  | mcrT32 t =>
    obtain ⟨(h1 : _ = false), (h2 : _ = true), -⟩ := covers_encode_t32 rfl hw
    simp only [encode] at h1 h2
    simp [Instr.iset, decodeWord, decodeT32, encode, h1, h2]
  | mrrcT32 t t2 =>
    obtain ⟨(h1 : _ = false), (h2 : _ = false), (h3 : _ = true), -⟩ := covers_encode_t32 rfl hw
    simp only [encode] at h1 h2 h3
    simp [Instr.iset, decodeWord, decodeT32, encode, h1, h2, h3]
  | mcrrT32 t t2 =>
    obtain ⟨(h1 : _ = false), (h2 : _ = false), (h3 : _ = false), (h4 : _ = true)⟩ := covers_encode_t32 rfl hw
    simp only [encode] at h1 h2 h3 h4
    simp [Instr.iset, decodeWord, decodeT32, encode, h1, h2, h3, h4]

/-! ### The word of what the decoder answers -/

/-- The variable fields and the bits under the row's mask are the whole word of a 32-bit access. -/
theorem encode32_fields {w : Word} {l : BitVec 1} (h : w &&& Row.mrcA32.mask = encode32 0 l 0) :
    encode32 (condField w) l (rtField w) = w := by
  have whole : place (BitVec.allOnes 4) 28 ||| place (BitVec.allOnes 4) 12 ||| Row.mrcA32.mask = BitVec.allOnes 32 := by
    decide
  calc encode32 (condField w) l (rtField w)
      = w &&& place (BitVec.allOnes 4) 28 ||| w &&& place (BitVec.allOnes 4) 12 ||| w &&& Row.mrcA32.mask := by
        rw [encode32_eq_fields, condField, rtField, regBits_toFin, place_extractLsb', place_extractLsb', h]
    _ = w := by rw [← BitVec.and_or_distrib_left, ← BitVec.and_or_distrib_left, whole, BitVec.and_allOnes]

theorem encode64_fields {w : Word} {l : BitVec 1} (h : w &&& Row.mrrcA32.mask = encode64 0 l 0 0) :
    encode64 (condField w) l (rtField w) (rt2Field w) = w := by
  have whole : place (BitVec.allOnes 4) 28 ||| place (BitVec.allOnes 4) 16 ||| place (BitVec.allOnes 4) 12 |||
      Row.mrrcA32.mask = BitVec.allOnes 32 := by decide
  calc encode64 (condField w) l (rtField w) (rt2Field w)
      = w &&& place (BitVec.allOnes 4) 28 ||| w &&& place (BitVec.allOnes 4) 16 |||
          w &&& place (BitVec.allOnes 4) 12 ||| w &&& Row.mrrcA32.mask := by
        rw [encode64_eq_fields, condField, rtField, rt2Field, regBits_toFin, regBits_toFin, place_extractLsb',
          place_extractLsb', place_extractLsb', h]
    _ = w := by
        rw [← BitVec.and_or_distrib_left, ← BitVec.and_or_distrib_left, ← BitVec.and_or_distrib_left, whole,
          BitVec.and_allOnes]

/-- Bits that a mask keeps whole are those of the value the masked word has. -/
theorem extractLsb'_of_covers {r : Row} {w : Word} (h : r.covers w = true) {lo n : Nat}
    (hm : r.mask.extractLsb' lo n = BitVec.allOnes n) : w.extractLsb' lo n = r.value.extractLsb' lo n := by
  rw [← (covers_iff r w).1 h, BitVec.extractLsb'_and, hm, BitVec.and_allOnes]

/-- A word that matches a row matches every row that asks for some of the same bits. -/
theorem covers_of_weaker {r r' : Row} {w : Word} (h : r.covers w = true) (hm : r.mask &&& r'.mask = r'.mask)
    (hv : r.value &&& r'.mask = r'.value) : r'.covers w = true := by
  rw [covers_iff] at h ⊢
  rw [← hm, ← BitVec.and_assoc, h, hv]

theorem encode_of_decodeA32 {w : Word} {i : Instr} (h : decodeA32 w = .ok i) :
    i.iset = .a32 ∧ i.WellFormed ∧ encode i = w := by
  unfold decodeA32 at h
  split_ifs at h with hc h1 h2 h3 h4 <;> obtain rfl := Except.ok.inj h <;>
    refine ⟨rfl, show (condField w).legal = true by simpa using hc, ?_⟩
  · exact encode32_fields ((covers_iff _ w).1 h1)
  · exact encode32_fields ((covers_iff _ w).1 h2)
  · exact encode64_fields ((covers_iff _ w).1 h3)
  · exact encode64_fields ((covers_iff _ w).1 h4)

/-- A T32 word is the A32 word of the same access with condition AL (R59). -/
theorem encode_of_decodeT32 {w : Word} {i : Instr} (h : decodeT32 w = .ok i) :
    i.iset = .t32 ∧ i.WellFormed ∧ encode i = w := by
  unfold decodeT32 at h
  split_ifs at h with h1 h2 h3 h4 <;> obtain rfl := Except.ok.inj h <;> refine ⟨rfl, rfl, ?_⟩
  · have hc : condField w = 0b1110#4 := extractLsb'_of_covers h1 (by decide)
    have ha : Row.mrcA32.covers w = true := covers_of_weaker h1 (by decide) (by decide)
    simpa [encode, hc] using encode32_fields (l := 1) ((covers_iff _ w).1 ha)
  · have hc : condField w = 0b1110#4 := extractLsb'_of_covers h2 (by decide)
    have ha : Row.mcrA32.covers w = true := covers_of_weaker h2 (by decide) (by decide)
    simpa [encode, hc] using encode32_fields (l := 0) ((covers_iff _ w).1 ha)
  · have hc : condField w = 0b1110#4 := extractLsb'_of_covers h3 (by decide)
    have ha : Row.mrrcA32.covers w = true := covers_of_weaker h3 (by decide) (by decide)
    simpa [encode, hc] using encode64_fields (l := 1) ((covers_iff _ w).1 ha)
  · have hc : condField w = 0b1110#4 := extractLsb'_of_covers h4 (by decide)
    have ha : Row.mcrrA32.covers w = true := covers_of_weaker h4 (by decide) (by decide)
    simpa [encode, hc] using encode64_fields (l := 0) ((covers_iff _ w).1 ha)

/-- Settles O2: the row's mask and the fields the decoder reads leave no bit of the word out. -/
theorem encodeInvertsDecode : Obligations.EncodeInvertsDecode := by
  intro iset w i h
  cases iset with
  | a32 => exact encode_of_decodeA32 h
  | t32 => exact encode_of_decodeT32 h

/-! ### The rows -/

/-- The decoder answers where its chain of tests finds a row. -/
theorem decodeA32_ok_iff (w : Word) :
    (∃ i, decodeA32 w = .ok i) ↔ (condField w).legal = true ∧ ∃ r ∈ rowsOf .a32, r.covers w = true := by
  unfold decodeA32
  split_ifs with hc h1 h2 h3 h4 <;> simp_all [rowsOf]

theorem decodeT32_ok_iff (w : Word) : (∃ i, decodeT32 w = .ok i) ↔ ∃ r ∈ rowsOf .t32, r.covers w = true := by
  unfold decodeT32
  split_ifs with h1 h2 h3 h4 <;> simp_all [rowsOf]

/-- Two rows of one set ask for different values of a bit that both fix. -/
theorem rows_apart : ∀ iset : InstrSet, ∀ r ∈ rowsOf iset, ∀ r' ∈ rowsOf iset,
    r.value &&& r'.mask = r'.value &&& r.mask → r = r' := by
  intro iset
  cases iset <;> decide

/-- Settles O3: the first part by the decoder's chain of tests, the second since a word's bits under both masks are
those of both values. -/
theorem decodeAnswersExactlyOnTableRows : Obligations.DecodeAnswersExactlyOnTableRows := by
  intro iset w
  refine ⟨?answers, fun r hr r' hr' h h' => rows_apart iset r hr r' hr' ?apart⟩
  case answers =>
    cases iset with
    | a32 => simpa [decodeWord, Cond.legal, condField, covers_iff] using decodeA32_ok_iff w
    | t32 => simpa [decodeWord, covers_iff] using decodeT32_ok_iff w
  case apart => rw [← h, ← h', BitVec.and_assoc, BitVec.and_assoc, BitVec.and_comm r.mask]

/-- Settles O4. -/
theorem decodesWordsOfTheTestVectors : Obligations.DecodesWordsOfTheTestVectors := by
  unfold Obligations.DecodesWordsOfTheTestVectors
  decide

/-! ### The byte order of instruction text -/

/-- Two neighbouring fields, joined. -/
theorem extractLsb'_append {width : Nat} (v : BitVec width) {lo mid n m : Nat} (h : mid = lo + m) :
    v.extractLsb' mid n ++ v.extractLsb' lo m = v.extractLsb' lo (n + m) :=
  BitVec.extractLsb'_append_extractLsb'_eq_extractLsb' h

section Bytes
variable (w : Word)

/-- The bytes of a halfword, the most significant first. -/
theorem byteOf_append_high : byteOf w 3 ++ byteOf w 2 = w.extractLsb' 16 16 := extractLsb'_append w rfl

theorem byteOf_append_low : byteOf w 1 ++ byteOf w 0 = w.extractLsb' 0 16 := extractLsb'_append w rfl

theorem halves_append : w.extractLsb' 16 16 ++ w.extractLsb' 0 16 = w :=
  (extractLsb'_append w rfl).trans BitVec.extractLsb'_eq_self

theorem bytes_append : byteOf w 3 ++ byteOf w 2 ++ byteOf w 1 ++ byteOf w 0 = w := by
  calc byteOf w 3 ++ byteOf w 2 ++ byteOf w 1 ++ byteOf w 0
      = w.extractLsb' 16 16 ++ byteOf w 1 ++ byteOf w 0 := by rw [byteOf_append_high]
    _ = w.extractLsb' 8 24 ++ byteOf w 0 := congrArg (· ++ byteOf w 0) (extractLsb'_append w rfl)
    _ = w.extractLsb' 0 32 := extractLsb'_append w rfl
    _ = w := BitVec.extractLsb'_eq_self

/-- Bytes laid in the order the decoder reads them are the word again (20_memory.md R52, GK17). -/
theorem decodeBytes_layBytes (iset : InstrSet) (bigEndian : Bool) (rest : List Byte)
    (hwide : iset = .t32 → startsWide (w.extractLsb' 16 16) = true) :
    decodeBytes iset bigEndian (layBytes iset bigEndian w ++ rest) = (decodeWord iset w).map (·, rest) := by
  cases iset with
  | a32 => cases bigEndian <;> simp [layBytes, decodeBytes, wordOfBytes, bytes_append, decodeWord]
  | t32 =>
    cases bigEndian <;>
      simp [layBytes, decodeBytes, halfOfBytes, byteOf_append_high, byteOf_append_low, halves_append, hwide rfl,
        decodeWord]

/-- Every row of the T32 table starts as a 32-bit instruction does (R59). -/
theorem startsWide_of_covers {r : Row} (hr : r ∈ rowsOf .t32) (h : r.covers w = true) :
    startsWide (w.extractLsb' 16 16) = true := by
  have hvalue : ∀ r ∈ rowsOf .t32, r.value.extractLsb' 27 5 = 0b11101#5 := by decide
  have top : (w.extractLsb' 16 16).extractLsb' 11 5 = w.extractLsb' 27 5 := by
    apply BitVec.eq_of_getLsbD_eq
    intro k hk
    simp [hk, show 11 + k < 16 by omega, ← Nat.add_assoc]
  have hm : ∀ r ∈ rowsOf .t32, r.mask.extractLsb' 27 5 = BitVec.allOnes 5 := by decide
  simp only [startsWide, top, extractLsb'_of_covers h (hm r hr), hvalue r hr]
  decide

end Bytes

/-- Settles O1: the bytes are the word again, and the decoder's tests stop at the instruction's own row. -/
theorem decodeInvertsEncode : Obligations.DecodeInvertsEncode := by
  intro i bigEndian rest hw
  have hwide : i.iset = .t32 → startsWide ((encode i).extractLsb' 16 16) = true := fun hi =>
    have hrow : i.row ∈ rowsOf .t32 := by cases i <;> simp_all [Instr.iset, Instr.row, rowsOf]
    startsWide_of_covers _ hrow (by rw [covers_encode hw (hi ▸ hrow), decide_eq_true rfl])
  rw [decodeBytes_layBytes _ _ _ _ hwide, decodeWord_encode hw]
  rfl

end Sys2Proof


/-! PROOFS of the step, 30_encoding.md R61 and 70_reset_and_hazards.md R104. First the program text after a load, then
what fetch and step come to, then the statements. -/

namespace Sys2Proof.Machine

/-! ### The program text after a load -/

/-- A load changes the bytes at its own addresses only. -/
theorem read_load_other (bs : List Byte) (m : Memory) (a : Word) (a' : Nat)
    (h : ∀ k, k < bs.length → a' ≠ (a.toNat + k) % 2 ^ 32) :
    Memory.read (Memory.load m a bs) a' = Memory.read m a' := by
  induction bs generalizing m a with
  | nil => rfl
  | cons b bs ih =>
    have hfirst : a' ≠ a.toNat := by
      have := h 0 (by simp)
      rwa [Nat.add_zero, Nat.mod_eq_of_lt a.isLt] at this
    have hrest : ∀ k, k < bs.length → a' ≠ ((a + 1).toNat + k) % 2 ^ 32 := fun k hk => by
      have := h (k + 1) (by simpa using hk)
      rw [BitVec.toNat_add, Nat.mod_add_mod]
      rwa [Nat.add_comm k 1, ← Nat.add_assoc] at this
    rw [Memory.load, ih _ _ hrest, read_write_other _ _ _ _ hfirst]

/-- The bytes loaded at an address are the bytes listed there, while they do not wrap onto themselves. -/
theorem run_load (bs : List Byte) (m : Memory) (a : Word) (hlen : bs.length ≤ 2 ^ 32) :
    Memory.run (Memory.load m a bs) a bs.length = bs := by
  induction bs generalizing m a with
  | nil => rfl
  | cons b bs ih =>
    have hlen' : bs.length + 1 ≤ 2 ^ 32 := hlen
    have apart : ∀ k, k < bs.length → a.toNat ≠ ((a + 1).toNat + k) % 2 ^ 32 := fun k hk => by
      have := a.isLt
      rw [BitVec.toNat_add, Nat.mod_add_mod, show (1 : Word).toNat = 1 from rfl]
      omega
    have hread : Memory.read (Memory.load m a (b :: bs)) a.toNat = some b := by
      rw [Memory.load, read_load_other _ _ _ _ apart, read_write_same]
    rw [List.length_cons, Memory.run, hread]
    exact congrArg (b :: ·) (ih _ _ (by omega))

/-! ### Fetch and step -/

section Fetch
variable {s : State} {i : Instr}

theorem fetch_of_no_byte (h : Memory.read s.mem s.pc.toNat = none) : fetch s = .error .endOfProgram := by
  simp [fetch, Memory.run, h]

theorem fetch_of_decode {rest : List Byte}
    (h : decodeBytes s.env.iset s.config.ifetchBigEndian (Memory.run s.mem s.pc 4) = .ok (i, rest)) :
    fetch s = .ok i := by
  unfold fetch
  cases hrun : Memory.run s.mem s.pc 4 with
  | nil => simp [hrun, decodeBytes] at h
  | cons b bs =>
    rw [hrun] at h
    simp [h]

theorem fetch_of_reject {b : Byte} {r : Reject} (hb : Memory.read s.mem s.pc.toNat = some b)
    (h : decodeBytes s.env.iset s.config.ifetchBigEndian (Memory.run s.mem s.pc 4) = .error r) :
    fetch s = .error (.rejected r) := by
  simp only [Memory.run, hb] at h
  simp only [fetch, Memory.run, hb, h]

theorem step_of_fetch (h : fetch s = .ok i) : step s = afterExec (exec i s) := by
  simp [step, h]

theorem step_of_fetch_error {r : Refusal} (h : fetch s = .error r) : step s = .refused r := by
  simp [step, h]

end Fetch

theorem nextInputs_eq (t : State) :
    t.nextInputs = { t with inputs := t.laterInputs.headD t.inputs, laterInputs := t.laterInputs.tail } := by
  unfold State.nextInputs
  split <;> rename_i h <;> cases t <;> simp_all

/-- Settles O5. -/
theorem stepRunsTheDecodedInstruction : Obligations.StepRunsTheDecodedInstruction := by
  intro s i rest hdec _
  rw [step_of_fetch (fetch_of_decode hdec)]
  refine ⟨fun t ht => ?_, fun f hf => by rw [hf]; rfl, fun r hr => by rw [hr]; rfl⟩
  rw [ht, ← nextInputs_eq]
  rfl

/-- Settles O6. -/
theorem stepStopsWhereNoInstructionStands : Obligations.StepStopsWhereNoInstructionStands := fun _ =>
  ⟨fun h => step_of_fetch_error (fetch_of_no_byte h),
    fun _ _ hb hr => step_of_fetch_error (fetch_of_reject hb hr)⟩

/-! ### An instruction laid at pc -/

theorem tableWord_toNat (w : Word) : tableWord 32 w.toNat = w := by
  rw [tableWord, Nat.mod_eq_of_lt w.isLt, BitVec.ofNat_toNat, BitVec.setWidth_eq]

theorem length_layBytes (iset : InstrSet) (bigEndian : Bool) (w : Word) : (layBytes iset bigEndian w).length = 4 := by
  cases iset <;> cases bigEndian <;> rfl

/-- What fetch finds where an instruction of the current set was laid. -/
theorem fetch_withFetchWord {s : State} {i : Instr} (hw : i.WellFormed) (hi : i.iset = s.env.iset) :
    fetch (s.withFetchWord 32 (encode i).toNat) = .ok i := by
  apply fetch_of_decode (rest := [])
  have hbytes := run_load (layBytes s.env.iset s.config.ifetchBigEndian (encode i)) s.mem s.pc
    (by simp [length_layBytes])
  have hdec := decodeInvertsEncode i s.config.ifetchBigEndian [] hw
  rw [length_layBytes] at hbytes
  rw [hi, List.append_nil] at hdec
  simp only [State.withFetchWord, State.placeAtPc, tableWord_toNat, hbytes, hdec]

/-- Settles O7: the bytes laid at pc are those the decoder reads there, and a load changes no byte beside them. -/
theorem placedInstructionIsTheNextToRun : Obligations.PlacedInstructionIsTheNextToRun := by
  intro s i hw hi p
  refine ⟨step_of_fetch (fetch_withFetchWord hw hi), fun a ha => ?_, rfl⟩
  exact read_load_other _ _ _ _ (by rwa [length_layBytes])

end Sys2Proof.Machine


/-! PROOFS of what the accesses come to, 40_system_register_access.md sections 1 to 3. First the state after each data
movement, then exec by the answer of the tests, then the statements. -/

namespace Sys2Proof.Machine

/-! ### The state after each data movement -/

/-- The high word of a cell as MRRC reads it (R30). -/
def seenHigh (b : Res0Top) (w : Word) : Word :=
  match b with
  | .readAsWritten => w
  | .readsZero => w &&& 0x00FFFFFF

section Movements
variable (t t2 : RegNum) (c : CellName) (s : State)

/-- The bits that may read as zero are the high word's top byte (R30). -/
theorem highWord_readCell : highWord (s.readCell c) = seenHigh s.config.res0TopBehaviour (highWord (s.cell c)) := by
  unfold State.readCell
  cases s.config.res0TopBehaviour with
  | readAsWritten => rfl
  | readsZero => exact BitVec.extractLsb'_and

theorem lowWord_readCell : lowWord (s.readCell c) = lowWord (s.cell c) := lowWord_res0View _ _

theorem advancePc_moveToReg :
    (moveToReg t c s).advancePc = { s with regs := s.regs.set t (lowWord (s.cell c)), pc := s.pc + 4 } := by
  rw [moveToReg, lowWord_readCell]
  rfl

theorem advancePc_moveFromReg :
    (moveFromReg t c s).advancePc =
      { s.withCell c (joinWords (highWord (s.cell c)) (s.reg t)) with pc := s.pc + 4 } := by
  cases c <;> rfl

theorem advancePc_moveToPair :
    (moveToPair t t2 c s).advancePc =
      { s with
        regs := (s.regs.set t2 (highWord (s.readCell c))).set t (lowWord (s.cell c)), pc := s.pc + 4 } := by
  simp only [moveToPair, lowWord_readCell]
  rfl

theorem advancePc_moveFromPair :
    (moveFromPair t t2 c s).advancePc =
      { s.withCell c (joinWords (s.reg t2) (s.reg t)) with pc := s.pc + 4 } := by
  cases c <;> rfl

end Movements

/-- Settles O8. -/
theorem mrcReadsTheLowWord : Obligations.MrcReadsTheLowWord := by
  intro q t s c ht hr after
  have hafter : (moveToReg t c s).advancePc = after := advancePc_moveToReg t c s
  have ha : (t != 15) = true := by simpa using ht
  rw [← hafter]
  exact ⟨exec_of_reaches (i := .mrcA32 q t) ha hr, exec_of_reaches (i := .mrcT32 t) ha hr⟩

/-- Settles O9. -/
theorem mcrWritesTheLowWord : Obligations.McrWritesTheLowWord := by
  intro q t s c ht hr v after
  have hafter : (moveFromReg t c s).advancePc = after := advancePc_moveFromReg t c s
  have ha : (t != 15) = true := by simpa using ht
  rw [← hafter]
  exact ⟨exec_of_reaches (i := .mcrA32 q t) ha hr, exec_of_reaches (i := .mcrT32 t) ha hr⟩

/-- Settles O10. -/
theorem mrrcReadsBothWords : Obligations.MrrcReadsBothWords := by
  intro q t t2 s c ht ht2 hne hr hi after
  have hhi : highWord (s.readCell c) = hi := highWord_readCell c s
  have hafter : (moveToPair t t2 c s).advancePc = after := by rw [advancePc_moveToPair, hhi]; rfl
  have ha : (t != 15 && t2 != 15 && t != t2) = true := by simp [ht, ht2, hne]
  rw [← hafter]
  exact ⟨exec_of_reaches (i := .mrrcA32 q t t2) ha hr, exec_of_reaches (i := .mrrcT32 t t2) ha hr⟩

/-- Settles O11. -/
theorem mcrrWritesBothWords : Obligations.McrrWritesBothWords := by
  intro q t t2 s c ht ht2 hr after
  have hafter : (moveFromPair t t2 c s).advancePc = after := advancePc_moveFromPair t t2 c s
  have ha : (t != 15 && t2 != 15) = true := by simp [ht, ht2]
  rw [← hafter]
  exact ⟨exec_of_reaches (i := .mcrrA32 q t t2) ha hr, exec_of_reaches (i := .mcrrT32 t t2) ha hr⟩

/-! ### exec by the answer of the tests -/

section Answers
variable {i : Instr} {s : State}

theorem reaches_iff {d : Direction} (ec : Nat) {c : CellName} : Reaches d s c ↔ presentTarget d ec s = .ok c := by
  refine ⟨fun h => presentTarget_of_reaches h ec, fun h => ?_⟩
  obtain ⟨hcap, htgt⟩ := presentTarget_ok h
  refine ⟨hcap, ?_⟩
  rw [accessTarget_eq_table] at htgt
  cases hrow : accessTable d s with
  | reaches c' =>
    rw [hrow] at htgt
    exact congrArg _ (Except.ok.inj htgt)
  | _ => simp [hrow, AccessResult.target] at htgt

/-- A failed condition skips an access that would reach a cell (R65, D7). -/
theorem exec_of_failed_reaches {c : CellName} (ha : i.admitted = true) (hp : ¬ Passes i s)
    (hr : Reaches i.direction s c) : exec i s = .next s.advancePc := by
  rw [exec_eq_access, (formRefusal_eq_none_iff i).2 ha]
  simp [unlessRefused, access, presentTarget_of_reaches hr, mt (passed_iff i s).1 hp]

/-- A failed condition is refused where the access would raise (R65). -/
theorem exec_of_failed_raises {f : Fault} (ha : i.admitted = true) (hp : ¬ Passes i s)
    (htgt : presentTarget i.direction i.ec s = .error f) : exec i s = .refused .conditionFailedWouldRaise := by
  rw [exec_eq_access, (formRefusal_eq_none_iff i).2 ha]
  simp [unlessRefused, access, htgt, mt (passed_iff i s).1 hp]

/-- An admitted access that reaches a cell answers a next state, completed or skipped. -/
theorem exec_next_of_reaches {c : CellName} (ha : i.admitted = true) (hr : Reaches i.direction s c) :
    ∃ t, exec i s = .next t := by
  by_cases hp : Passes i s
  · exact ⟨_, exec_of_reaches ha hr hp⟩
  · exact ⟨_, exec_of_failed_reaches ha hp hr⟩

/-- The tests raise the three outcomes of R80 and no other, the traps with the access's own code. -/
theorem presentTarget_error_cases {d : Direction} {ec : Nat} {f : Fault} (h : presentTarget d ec s = .error f) :
    f = .undefined ∨ f = .hypTrap ec ∨ f = .aarch64SystemAccessTrap .el2 ec := by
  by_cases hf : f = .undefined
  · exact .inl hf
  · obtain ⟨-, htgt⟩ := (presentTarget_eq_trap_iff hf).1 h
    obtain ⟨-, htrap⟩ := (accessTarget_eq_trap_iff hf).1 htgt
    obtain hc | ⟨-, -, hc⟩ | ⟨-, -, hc⟩ := trapCheckEL1_cases d ec s <;> rw [hc] at htrap
    · cases htrap
    · exact .inr (.inr (Option.some.inj htrap).symm)
    · exact .inr (.inl (Option.some.inj htrap).symm)

/-- A refusal other than that of a failed condition is the refusal of the form. -/
theorem exec_refused_iff {r : Refusal} (hr : r ≠ .conditionFailedWouldRaise) :
    exec i s = .refused r ↔ i.formRefusal = some r := by
  rw [exec_eq_access]
  cases i.formRefusal with
  | some why => simp [unlessRefused]
  | none =>
    simp only [unlessRefused, access]
    cases presentTarget i.direction i.ec s <;> cases i.passed s <;> simp [raise, hr.symm]

end Answers

/-- Settles O12: the table is the skeleton (R75, R67), and exec is the answer of the skeleton. -/
theorem outcomeByExceptionLevel : Obligations.OutcomeByExceptionLevel := by
  intro i s ha hp hcap
  have htgt := accessTarget_eq_table i.direction i.ec s
  cases hrow : accessTable i.direction s with
  | reaches c =>
    exact ⟨accessTarget_ok (htgt.trans (by rw [hrow]; rfl)), _, exec_of_reaches ha ⟨hcap, hrow⟩ hp⟩
  | undefined | trapAArch64 | trapHyp => exact exec_of_target_error ha hp hcap (by rw [htgt, hrow]; rfl)

/-- Settles O18: at EL2 neither a trap nor the signal is looked at. -/
theorem accessAtEl2AlwaysCompletes : Obligations.AccessAtEl2AlwaysCompletes := by
  intro i s ha hel hcap
  obtain ⟨c, hc⟩ := selectedCell_of_ne_el0 (s := s) (by simp [hel])
  have htgt : presentTarget i.direction i.ec s = .ok c := by
    rw [presentTarget_of_present hcap]
    simp [accessTarget, hel, hc]
  exact exec_next_of_reaches ha ((reaches_iff i.ec).2 htgt)

/-- Settles O19: both are the `Undefined` of the tests. -/
theorem accessAtEl0OrWithoutTheRegisterIsUndefined : Obligations.AccessAtEl0OrWithoutTheRegisterIsUndefined := by
  intro i s ha h
  have htgt : presentTarget i.direction i.ec s = .error .undefined := by
    rw [presentTarget_eq_undefined_iff, accessTarget_eq_undefined_iff]
    tauto
  exact ⟨fun hp => exec_eq_fault_iff.2 ⟨ha, hp, htgt⟩, fun hp => exec_of_failed_raises ha hp htgt⟩

/-- Settles O20. -/
theorem failedConditionSkipsOrIsRefused : Obligations.FailedConditionSkipsOrIsRefused := by
  intro i s ha hp
  refine ⟨fun c hr => exec_of_failed_reaches ha hp hr, fun hnone => ?_⟩
  cases htgt : presentTarget i.direction i.ec s with
  | ok c => exact absurd ((reaches_iff i.ec).2 htgt) (hnone c)
  | error f => exact exec_of_failed_raises ha hp htgt

/-- Settles O22. -/
theorem admittedAccessHasANamedOutcome : Obligations.AdmittedAccessHasANamedOutcome := by
  intro i s ha
  cases htgt : presentTarget i.direction i.ec s with
  | ok c => exact .inl (exec_next_of_reaches ha ((reaches_iff i.ec).2 htgt))
  | error f =>
    by_cases hp : Passes i s
    · have hf := exec_eq_fault_iff.2 ⟨ha, hp, htgt⟩
      obtain rfl | rfl | rfl := presentTarget_error_cases htgt <;> simp [hf]
    · simp [exec_of_failed_raises ha hp htgt]

/-! ### The refused forms -/

theorem refuseWord_iff (t : RegNum) (r : Refusal) : refuseWord t = some r ↔ t = 15 ∧ r = .registerFifteen := by
  unfold refuseWord
  split <;> simp_all [eq_comm]

theorem refuseWritePair_iff (t t2 : RegNum) (r : Refusal) :
    refuseWritePair t t2 = some r ↔ (t = 15 ∨ t2 = 15) ∧ r = .registerFifteen := by
  unfold refuseWritePair
  split <;> simp_all [eq_comm]

theorem refuseReadPair_iff (t t2 : RegNum) (r : Refusal) :
    refuseReadPair t t2 = some r ↔
      ((t = 15 ∨ t2 = 15) ∧ r = .registerFifteen) ∨ (t ≠ 15 ∧ t = t2 ∧ r = .mrrcSameRegister) := by
  unfold refuseReadPair
  split_ifs with h15 hsame
  · have hnot : ¬ (t ≠ 15 ∧ t = t2) := by
      rintro ⟨hne, rfl⟩
      simp [hne] at h15
    simp only [Option.some.injEq, eq_comm (a := Refusal.registerFifteen)]
    tauto
  · simp only [Option.some.injEq, eq_comm (a := Refusal.mrrcSameRegister)]
    tauto
  · simp only [false_iff]
    tauto

theorem formRefusal_registerFifteen_iff (i : Instr) : i.formRefusal = some .registerFifteen ↔ 15 ∈ i.operands := by
  cases i <;>
    simp [Instr.formRefusal, Instr.operands, refuseWord_iff, refuseWritePair_iff, refuseReadPair_iff,
      eq_comm (a := (15 : RegNum))]

theorem formRefusal_mrrcSameRegister_iff (i : Instr) :
    i.formRefusal = some .mrrcSameRegister ↔
      ∃ t : RegNum, t ≠ 15 ∧ ((∃ q, i = .mrrcA32 q t t) ∨ i = .mrrcT32 t t) := by
  cases i with
  | mrrcA32 q t t2 | mrrcT32 t t2 =>
    simp only [Instr.formRefusal, refuseReadPair_iff]
    aesop
  | _ => simp [Instr.formRefusal, refuseWord_iff, refuseWritePair_iff]

/-- Settles O21: the refusal of the form is looked at before every other test (R65 (1)). -/
theorem refusedFormsAreRegister15AndMrrcTwice : Obligations.RefusedFormsAreRegister15AndMrrcTwice := by
  intro i s
  rw [exec_refused_iff (by simp), exec_refused_iff (by simp)]
  exact ⟨(formRefusal_registerFifteen_iff i).symm, formRefusal_mrrcSameRegister_iff i⟩

end Sys2Proof.Machine


/-! PROOFS of the printed pseudocode, 40_system_register_access.md R71 to R74. First exec as the skeleton with a body
for the cell it reaches, then the skeleton level by level, then each pseudocode as a skeleton, then the statement. -/

namespace Sys2Proof.Machine

/-! ### The skeleton with a body -/

/-- The skeleton of R67 with a body for the cell it reaches. -/
def skeleton (d : Direction) (ec : Nat) (body : CellName → Outcome) (s : State) : Outcome :=
  match accessTarget d ec s with
  | .error f => .fault f
  | .ok c => body c

/-- What an admitted access does on the cell it reaches. -/
def completes (i : Instr) (s : State) (c : CellName) : Outcome := .next (i.movement c s).advancePc

theorem exec_eq_skeleton {i : Instr} {s : State} (ha : i.admitted = true) (hp : Passes i s)
    (hcap : s.config.el1AArch32Capable = true) :
    exec i s = skeleton i.direction i.ec (completes i s) s := by
  unfold skeleton
  cases htgt : accessTarget i.direction i.ec s with
  | error f => exact exec_of_target_error ha hp hcap htgt
  | ok c => exact exec_of_target_ok ha hp hcap htgt

section Levels
variable {d : Direction} {ec : Nat} {body : CellName → Outcome} {s : State}

theorem skeleton_el0 (hel : s.env.el = .el0) : skeleton d ec body s = .fault .undefined := by
  simp [skeleton, accessTarget, hel]

theorem selectedCell_el1_el2 (hel : s.env.el = .el1 ∨ s.env.el = .el2) :
    selectedCell s = .ok (if s.config.haveEL3 && s.config.el3AArch32 then .ttbr0NS else .ttbr0) := by
  obtain hel | hel := hel <;> simp only [selectedCell, selectInstance, hel, Config.el3IsAArch32] <;> rfl

theorem skeleton_el1 (hel : s.env.el = .el1) :
    skeleton d ec body s =
      if s.inputs.el2Enabled && !s.config.el2AArch32 && s.env.hstrEL2T2 then .fault (.aarch64SystemAccessTrap .el2 ec)
      else if s.inputs.el2Enabled && s.config.el2AArch32 && s.env.hstrT2 then .fault (.hypTrap ec)
      else if s.inputs.el2Enabled && !s.config.el2AArch32 && s.env.hcrEL2Control d then
        .fault (.aarch64SystemAccessTrap .el2 ec)
      else if s.inputs.el2Enabled && s.config.el2AArch32 && s.env.hcrControl d then .fault (.hypTrap ec)
      else if s.config.haveEL3 && s.config.el3AArch32 then body .ttbr0NS
      else body .ttbr0 := by
  simp only [skeleton, accessTarget, hel, trapCheckEL1, selectedCell_el1_el2 (.inl hel)]
  split_ifs <;> rfl

theorem skeleton_el2 (hel : s.env.el = .el2) :
    skeleton d ec body s = if s.config.haveEL3 && s.config.el3AArch32 then body .ttbr0NS else body .ttbr0 := by
  simp only [skeleton, accessTarget, hel, selectedCell_el1_el2 (.inr hel)]
  split_ifs <;> rfl

theorem skeleton_el3 (hel : s.env.el = .el3) :
    skeleton d ec body s =
      if writeDisabled d s then .fault .undefined else if !s.env.scrNS then body .ttbr0S else body .ttbr0NS := by
  cases hw : writeDisabled d s with
  | true => simp [skeleton, accessTarget, hel, hw]
  | false => cases hns : s.env.scrNS <;> simp [skeleton, accessTarget, hel, hw, selectedCell, selectInstance, hns]

end Levels

/-! ### Each pseudocode is the skeleton -/

section Printed
variable (t t2 : RegNum) (s : State)

theorem mrcPseudocode_eq_skeleton :
    mrcPseudocode t s = skeleton .read 0x03
      (fun c => .next { s with regs := s.regs.set t (lowWord (s.cell c)), pc := s.pc + 4 }) s := by
  unfold mrcPseudocode
  cases hel : s.env.el with
  | el0 => rw [skeleton_el0 hel]
  | el1 => rw [skeleton_el1 hel]; rfl
  | el2 => rw [skeleton_el2 hel]; rfl
  | el3 => rw [skeleton_el3 hel]; rfl

theorem mcrPseudocode_eq_skeleton :
    mcrPseudocode t s = skeleton .write 0x03
      (fun c => .next { s.withCell c (joinWords (highWord (s.cell c)) (s.reg t)) with pc := s.pc + 4 }) s := by
  unfold mcrPseudocode
  cases hel : s.env.el with
  | el0 => rw [skeleton_el0 hel]
  | el1 => rw [skeleton_el1 hel]; rfl
  | el2 => rw [skeleton_el2 hel]; rfl
  | el3 => rw [skeleton_el3 hel]; rfl

theorem mrrcPseudocode_eq_skeleton :
    mrrcPseudocode t t2 s = skeleton .read 0x04
      (fun c => .next { s with
        regs := (s.regs.set t2 (highWord (s.cell c))).set t (lowWord (s.cell c)), pc := s.pc + 4 }) s := by
  unfold mrrcPseudocode
  cases hel : s.env.el with
  | el0 => rw [skeleton_el0 hel]
  | el1 => rw [skeleton_el1 hel]; rfl
  | el2 => rw [skeleton_el2 hel]; rfl
  | el3 => rw [skeleton_el3 hel]; rfl

theorem mcrrPseudocode_eq_skeleton :
    mcrrPseudocode t t2 s = skeleton .write 0x04
      (fun c => .next { s.withCell c (joinWords (s.reg t2) (s.reg t)) with pc := s.pc + 4 }) s := by
  unfold mcrrPseudocode
  cases hel : s.env.el with
  | el0 => rw [skeleton_el0 hel]
  | el1 => rw [skeleton_el1 hel]; rfl
  | el2 => rw [skeleton_el2 hel]; rfl
  | el3 => rw [skeleton_el3 hel]; rfl

end Printed

/-! ### exec is the pseudocode -/

section Agree
variable {i : Instr} {s : State} (ha : i.admitted = true) (hp : Passes i s)
  (hcap : s.config.el1AArch32Capable = true)
include ha hp hcap

/-- exec is any text that is the skeleton with the access's own state after the cell it reaches. -/
theorem exec_eq_printed {printed : Outcome} {after : CellName → State}
    (hprinted : printed = skeleton i.direction i.ec (fun c => .next (after c)) s)
    (hafter : ∀ c, (i.movement c s).advancePc = after c) : exec i s = printed := by
  have hbody : completes i s = fun c => .next (after c) := funext fun c => congrArg _ (hafter c)
  rw [exec_eq_skeleton ha hp hcap, hprinted, hbody]

end Agree

/-- Settles O13: exec and the pseudocode of its rule are the same skeleton, with the same body for the cell reached. -/
theorem accessesAgreeWithTheirPseudocode : Obligations.AccessesAgreeWithTheirPseudocode := by
  intro t t2 s ht ht2 hcap hraw
  have one : (t != 15) = true := by simpa using ht
  have two : (t != 15 && t2 != 15) = true := by simp [ht, ht2]
  have differ : t ≠ t2 → (t != 15 && t2 != 15 && t != t2) = true := fun hne => by simp [ht, ht2, hne]
  have pairRead (c : CellName) : (moveToPair t t2 c s).advancePc = { s with
      regs := (s.regs.set t2 (highWord (s.cell c))).set t (lowWord (s.cell c)), pc := s.pc + 4 } := by
    rw [advancePc_moveToPair, readCell_of_readAsWritten hraw]
  refine ⟨⟨?_, ?_, fun hne => ?_, ?_⟩, fun hpass => ⟨?_, ?_, fun hne => ?_, ?_⟩⟩
  · exact exec_eq_printed (i := .mrcA32 .al t) one (.inl rfl) hcap (mrcPseudocode_eq_skeleton t s)
      (advancePc_moveToReg t · s)
  · exact exec_eq_printed (i := .mcrA32 .al t) one (.inl rfl) hcap (mcrPseudocode_eq_skeleton t s)
      (advancePc_moveFromReg t · s)
  · exact exec_eq_printed (i := .mrrcA32 .al t t2) (differ hne) (.inl rfl) hcap (mrrcPseudocode_eq_skeleton t t2 s)
      pairRead
  · exact exec_eq_printed (i := .mcrrA32 .al t t2) two (.inl rfl) hcap (mcrrPseudocode_eq_skeleton t t2 s)
      (advancePc_moveFromPair t t2 · s)
  · exact exec_eq_printed (i := .mrcT32 t) one (.inr hpass) hcap (mrcPseudocode_eq_skeleton t s)
      (advancePc_moveToReg t · s)
  · exact exec_eq_printed (i := .mcrT32 t) one (.inr hpass) hcap (mcrPseudocode_eq_skeleton t s)
      (advancePc_moveFromReg t · s)
  · exact exec_eq_printed (i := .mrrcT32 t t2) (differ hne) (.inr hpass) hcap (mrrcPseudocode_eq_skeleton t t2 s)
      pairRead
  · exact exec_eq_printed (i := .mcrrT32 t t2) two (.inr hpass) hcap (mcrrPseudocode_eq_skeleton t t2 s)
      (advancePc_moveFromPair t t2 · s)

end Sys2Proof.Machine


/-! PROOFS of what an access reads and what it leaves unchanged, 40_system_register_access.md section 3. First the frame
of the data movements and of exec, then what the outcome table depends on, then the statements. -/

namespace Sys2Proof.Machine

/-! ### The frame of a data movement -/

section MovementFrame
variable (i : Instr) (c : CellName) (s : State)

@[simp] theorem movement_pc : (i.movement c s).pc = s.pc := by
  cases i <;> simp [Instr.movement, moveToReg, moveFromReg, moveToPair, moveFromPair]

@[simp] theorem movement_config : (i.movement c s).config = s.config := by
  cases i <;> simp [Instr.movement, moveToReg, moveFromReg, moveToPair, moveFromPair]

@[simp] theorem movement_env : (i.movement c s).env = s.env := by
  cases i <;> simp [Instr.movement, moveToReg, moveFromReg, moveToPair, moveFromPair]

@[simp] theorem movement_inputs : (i.movement c s).inputs = s.inputs := by
  cases i <;> simp [Instr.movement, moveToReg, moveFromReg, moveToPair, moveFromPair]

@[simp] theorem movement_laterInputs : (i.movement c s).laterInputs = s.laterInputs := by
  cases i <;> simp [Instr.movement, moveToReg, moveFromReg, moveToPair, moveFromPair]

@[simp] theorem movement_mem : (i.movement c s).mem = s.mem := by
  cases i <;> simp [Instr.movement, moveToReg, moveFromReg, moveToPair, moveFromPair]

/-- A data movement writes the instruction's destinations only. -/
theorem movement_reg_other {r : RegNum} (h : r ∉ i.destinations) : (i.movement c s).reg r = s.reg r := by
  cases i with
  | mrcA32 _ t | mrcT32 t =>
    have hne : r ≠ t := by simpa [Instr.destinations] using h
    exact setReg_reg_other s _ hne
  | mrrcA32 _ t t2 | mrrcT32 t t2 =>
    obtain ⟨hne, hne2⟩ : r ≠ t ∧ r ≠ t2 := by simpa [Instr.destinations] using h
    exact (setReg_reg_other _ _ hne).trans (setReg_reg_other s _ hne2)
  | mcrA32 | mcrT32 | mcrrA32 | mcrrT32 => exact setCell_reg ..

theorem movement_cell_other {c' : CellName} (h : c' ≠ c) : (i.movement c s).cell c' = s.cell c' := by
  cases i with
  | mrcA32 | mrcT32 => exact moveToReg_cell ..
  | mrrcA32 | mrrcT32 => exact moveToPair_cell ..
  | mcrA32 | mcrT32 | mcrrA32 | mcrrT32 => exact setCell_cell_other s c _ c' h

theorem movement_cell_of_read (h : i.direction = .read) (c' : CellName) : (i.movement c s).cell c' = s.cell c' := by
  cases i with
  | mrcA32 | mrcT32 => exact moveToReg_cell ..
  | mrrcA32 | mrrcT32 => exact moveToPair_cell ..
  | mcrA32 | mcrT32 | mcrrA32 | mcrrT32 => cases h

theorem movement_reg_of_write (h : i.direction = .write) (r : RegNum) : (i.movement c s).reg r = s.reg r := by
  cases i with
  | mcrA32 | mcrT32 | mcrrA32 | mcrrT32 => exact setCell_reg ..
  | mrcA32 | mrcT32 | mrrcA32 | mrrcT32 => cases h

/-- R101: the high word of a cell is stored by an MCRR only. -/
theorem movement_highWord (h : i.isMcrr = false) (c' : CellName) :
    highWord ((i.movement c s).cell c') = highWord (s.cell c') := by
  by_cases hc : c' = c
  · subst hc
    cases i with
    | mrcA32 | mrcT32 => exact congrArg highWord (moveToReg_cell ..)
    | mrrcA32 | mrrcT32 => exact congrArg highWord (moveToPair_cell ..)
    | mcrA32 _ t | mcrT32 t => exact (congrArg highWord (moveFromReg_cell t c' s)).trans (highWord_joinWords ..)
    | mcrrA32 | mcrrT32 => cases h
  · rw [movement_cell_other i c s hc]

end MovementFrame

/-! ### The frame of exec -/

section ExecFrame
variable {i : Instr} {s t : State}

/-- A next state of exec: pc + 4 alone, or the data movement on the cell SelectInstance gives and then pc + 4. -/
theorem exec_next_cases (h : exec i s = .next t) :
    t = s.advancePc ∨
      ∃ c, selectInstance s.config s.env.el s.env.scrNS = some c ∧ t = (i.movement c s).advancePc := by
  obtain ⟨-, -, c, -, hsel, ht⟩ := exec_next h
  split at ht
  · exact .inr ⟨c, hsel, ht⟩
  · exact .inl ht

theorem exec_frame (h : exec i s = .next t) :
    t.pc = s.pc + 4 ∧ t.mem = s.mem ∧ t.config = s.config ∧ t.env = s.env ∧ t.inputs = s.inputs ∧
      t.laterInputs = s.laterInputs := by
  obtain rfl | ⟨c, -, rfl⟩ := exec_next_cases h <;> simp

theorem exec_reg_other {r : RegNum} (h : exec i s = .next t) (hr : r ∉ i.destinations) : t.reg r = s.reg r := by
  obtain rfl | ⟨c, -, rfl⟩ := exec_next_cases h
  · rfl
  · exact movement_reg_other i c s hr

theorem exec_cell_other {c : CellName} (h : exec i s = .next t)
    (hc : selectInstance s.config s.env.el s.env.scrNS ≠ some c) : t.cell c = s.cell c := by
  obtain rfl | ⟨c', hsel, rfl⟩ := exec_next_cases h
  · exact advancePc_cell ..
  · have hne : c ≠ c' := fun e => hc (e ▸ hsel)
    rw [advancePc_cell, movement_cell_other i c' s hne]

theorem exec_highWord (h : exec i s = .next t) (hi : i.isMcrr = false) (c : CellName) :
    highWord (t.cell c) = highWord (s.cell c) := by
  obtain rfl | ⟨c', -, rfl⟩ := exec_next_cases h
  · rw [advancePc_cell]
  · rw [advancePc_cell, movement_highWord i c' s hi]

end ExecFrame

theorem destinations_of_write {i : Instr} (h : i.direction = .write) : i.destinations = [] := by
  cases i with
  | mcrA32 | mcrT32 | mcrrA32 | mcrrT32 => rfl
  | mrcA32 | mrcT32 | mrrcA32 | mrrcT32 => cases h

/-- Settles O23. -/
theorem readAccessFrame : Obligations.ReadAccessFrame := by
  intro i s t hd h
  obtain ⟨hpc, hmem, hrest⟩ := exec_frame h
  refine ⟨fun c => ?_, fun r hr => exec_reg_other h hr, hpc, fun a => by rw [hmem], hrest⟩
  obtain rfl | ⟨c', -, rfl⟩ := exec_next_cases h
  · exact advancePc_cell ..
  · rw [advancePc_cell, movement_cell_of_read i c' s hd]

/-- Settles O24. -/
theorem writeAccessFrame : Obligations.WriteAccessFrame := by
  intro i s t hd h
  obtain ⟨hpc, hmem, hrest⟩ := exec_frame h
  exact ⟨fun r => exec_reg_other h (by simp [destinations_of_write hd]), hpc, fun c hc => exec_cell_other h hc,
    fun c hi => exec_highWord h hi c, fun a => by rw [hmem], hrest⟩

/-! ### What the outcome table depends on -/

section Table
variable {d : Direction} {s u : State}

theorem presentTarget_congr (hcap : u.config.el1AArch32Capable = s.config.el1AArch32Capable)
    (htable : accessTable d u = accessTable d s) (ec : Nat) : presentTarget d ec u = presentTarget d ec s := by
  simp only [presentTarget, accessTarget_eq_table, hcap, htable]

theorem accessTable_congr (hconfig : u.config = s.config) (henv : u.env = s.env) (hinputs : u.inputs = s.inputs) :
    accessTable d u = accessTable d s := by
  cases u
  cases s
  cases hconfig
  cases henv
  cases hinputs
  rfl

/-- What an access reaches is what it would reach after another one. -/
theorem Reaches.movement {c : CellName} (h : Reaches d s c) (i : Instr) (c' : CellName) :
    Reaches d (i.movement c' s).advancePc c := by
  obtain ⟨hcap, htable⟩ := h
  exact ⟨by simpa using hcap, (accessTable_congr (by simp) (by simp) (by simp)).trans htable⟩

/-- The signal is looked at for a write at EL3 with SCR.NS = 0 only (R68). -/
theorem accessTable_withSignal (h : d = .read ∨ s.env.el ≠ .el3 ∨ s.env.scrNS = true) (g : Signal) :
    accessTable d (s.withSignal g) = accessTable d s := by
  cases hel : s.env.el with
  | el0 | el1 | el2 => simp only [accessTable, State.withSignal, hel] <;> rfl
  | el3 =>
    cases hns : s.env.scrNS with
    | true => simp only [accessTable, State.withSignal, hel, hns]
    | false =>
      obtain rfl : d = .read := by simpa [hel, hns] using h
      simp only [accessTable, State.withSignal, hel, hns]

theorem accessTable_el1 (hel : s.env.el = .el1) :
    accessTable d s =
      if s.inputs.el2Enabled && !s.config.el2AArch32 && ctl64 d s then .trapAArch64
      else if s.inputs.el2Enabled && s.config.el2AArch32 && ctl32 d s then .trapHyp
      else .reaches (if s.config.haveEL3 && s.config.el3AArch32 then .ttbr0NS else .ttbr0) := by
  unfold accessTable
  rw [hel]

/-- A control may change where the test that looks at it does not apply. -/
theorem and_congr_of_applies {p a b : Bool} (h : p = true → a = b) : (p && a) = (p && b) := by
  cases p with
  | false => rfl
  | true => exact h rfl

/-- The controls of the check at EL1 that the rows of R75's table look at. -/
theorem accessTable_withEnv {e : Env} (hel : e.el = s.env.el) (hns : e.scrNS = s.env.scrNS)
    (h64 : s.env.el = .el1 → s.inputs.el2Enabled = true → s.config.el2AArch32 = false →
      ctl64 d (s.withEnv e) = ctl64 d s)
    (h32 : s.env.el = .el1 → s.inputs.el2Enabled = true → s.config.el2AArch32 = true →
      ctl32 d (s.withEnv e) = ctl32 d s) : accessTable d (s.withEnv e) = accessTable d s := by
  cases hlevel : s.env.el with
  | el0 | el2 => simp only [accessTable, State.withEnv, hel, hlevel] <;> rfl
  | el3 => cases h : s.env.scrNS <;> simp only [accessTable, State.withEnv, hel, hns, hlevel, h]
  | el1 =>
    have k64 : (s.inputs.el2Enabled && !s.config.el2AArch32 && ctl64 d (s.withEnv e)) =
        (s.inputs.el2Enabled && !s.config.el2AArch32 && ctl64 d s) := and_congr_of_applies fun h => by
      obtain ⟨hen, ha⟩ : s.inputs.el2Enabled = true ∧ s.config.el2AArch32 = false := by simpa using h
      exact h64 hlevel hen ha
    have k32 : (s.inputs.el2Enabled && s.config.el2AArch32 && ctl32 d (s.withEnv e)) =
        (s.inputs.el2Enabled && s.config.el2AArch32 && ctl32 d s) := and_congr_of_applies fun h => by
      obtain ⟨hen, ha⟩ : s.inputs.el2Enabled = true ∧ s.config.el2AArch32 = true := by simpa using h
      exact h32 hlevel hen ha
    rw [accessTable_el1 (s := s.withEnv e) (hel.trans hlevel), accessTable_el1 hlevel, ← k64, ← k32]
    rfl

end Table

/-- Settles O38: of the trap controls the outcome table reads `ctl64` or `ctl32` alone, and the data movements none. -/
theorem trapControlsReadOnlyWhereTheyApply : Obligations.TrapControlsReadOnlyWhereTheyApply := by
  intro i s e hel hns h32 h64
  have htable : accessTable i.direction (s.withEnv e) = accessTable i.direction s := by
    refine accessTable_withEnv hel hns (fun h1 h2 h3 => ?_) (fun h1 h2 h3 => ?_)
    · obtain ⟨hT2, hread, hwrite⟩ := h64 h1 h2 h3
      cases hd : i.direction with
      | read => simp [ctl64, State.withEnv, hT2, hread hd]
      | write => simp [ctl64, State.withEnv, hT2, hwrite hd]
    · obtain ⟨hT2, hread, hwrite⟩ := h32 h1 h2 h3
      cases hd : i.direction with
      | read => simp [ctl32, State.withEnv, hT2, hread hd]
      | write => simp [ctl32, State.withEnv, hT2, hwrite hd]
  exact exec_commutes (presentTarget_congr (s := s) (u := s.withEnv e) rfl htable i.ec) (by cases i <;> rfl)
    (fun _ => rfl)    (fun c _ => movement_withEnv i c e s)

/-! ### CP15SDISABLE -/

theorem movement_withSignal (i : Instr) (c : CellName) (g : Signal) (s : State) :
    i.movement c (s.withSignal g) = (i.movement c s).withSignal g := by
  cases i <;> cases c <;> rfl

theorem exec_withSignal {i : Instr} {s : State}
    (h : i.direction = .read ∨ s.env.el ≠ .el3 ∨ s.env.scrNS = true) (g : Signal) :
    exec i (s.withSignal g) = mapNext (State.withSignal g) (exec i s) :=
  exec_commutes (presentTarget_congr (s := s) (u := s.withSignal g) rfl (accessTable_withSignal h g) i.ec)
    (by cases i <;> rfl) (fun _ => rfl) (fun c _ => movement_withSignal i c g s)

/-- A run whose first step faults ends there. -/
theorem runEnd_of_fault {i : Instr} {s : State} {f : Fault} (hfetch : fetch s = .ok i) (h : exec i s = .fault f)
    (n : Nat) : runEnd (n + 1) s = .fault f s := by
  simp [runEnd, step_of_fetch hfetch, h, afterExec]

/-- Settles O15. -/
theorem cp15sdisableDisablesSecureWritesOnly : Obligations.Cp15sdisableDisablesSecureWritesOnly := by
  intro i s ha hp hcap
  refine ⟨fun hd hel hns hsig => ?disabled, fun hd hel hns hsig => ?enabled, fun h g => exec_withSignal h g⟩
  case disabled =>
    have hexec : exec i s = .fault .undefined :=
      (undefinedHasExactlyThreeCauses i s ha hp).2 (.inr (.inr ⟨hd, hel, hns, hsig⟩))
    exact ⟨hexec, fun hfetch => runEnd_of_fault hfetch hexec⟩
  case enabled =>
    have hr := reaches_write_of_el3 hcap hel (by simp [hsig])
    exact exec_next_of_reaches ha (hd ▸ hr)

/-! ### Two accesses -/

section Two
variable {i j : Instr} {s : State} {c : CellName}

/-- Two admitted accesses with condition AL that reach the same cell do their two data movements on it. -/
theorem exec_twice (hi : i.admitted = true) (hj : j.admitted = true) (hiq : i.cond? = some .al)
    (hjq : j.cond? = some .al) (hir : Reaches i.direction s c) (hjr : Reaches j.direction s c) :
    exec i s = .next (i.movement c s).advancePc ∧
    exec j (i.movement c s).advancePc = .next (j.movement c (i.movement c s).advancePc).advancePc :=
  ⟨exec_of_reaches hi hir (.inl hiq), exec_of_reaches hj (hjr.movement i c) (.inl hjq)⟩

end Two

/-- Settles O27: the second movement reads the cell as the first one stored it. -/
theorem writtenValueIsReadBack : Obligations.WrittenValueIsReadBack := by
  intro t t2 a b s c ht ht2 ha hb hab hw hr seen
  have hseen : ∀ w, seen w = seenHigh s.config.res0TopBehaviour w := fun _ => rfl
  have pair : (t != 15 && t2 != 15) = true := by simp [ht, ht2]
  have one : (t != 15) = true := by simp [ht]
  have readPair : (a != 15 && b != 15 && a != b) = true := by simp [ha, hb, hab]
  have readOne : (a != 15) = true := by simp [ha]
  refine ⟨?mcrrMrrc, ?mcrrMrc, ?mcrMrrc⟩
  case mcrrMrrc =>
    obtain ⟨h1, h2⟩ := exec_twice (i := .mcrrA32 .al t t2) (j := .mrrcA32 .al a b) pair readPair rfl rfl hw hr
    refine ⟨_, _, h1, h2, ?_, ?_⟩
    · simp [Instr.movement, lowWord_readCell]
    · simp [Instr.movement, moveToPair_reg_high _ _ _ _ hab, highWord_readCell, hseen, moveFromPair]
  case mcrrMrc =>
    obtain ⟨h1, h2⟩ := exec_twice (i := .mcrrA32 .al t t2) (j := .mrcA32 .al a) pair readOne rfl rfl hw hr
    exact ⟨_, _, h1, h2, by simp [Instr.movement]⟩
  case mcrMrrc =>
    obtain ⟨h1, h2⟩ := exec_twice (i := .mcrA32 .al t) (j := .mrrcA32 .al a b) one readPair rfl rfl hw hr
    refine ⟨_, _, h1, h2, ?_, ?_⟩
    · simp [Instr.movement, lowWord_readCell]
    · simp [Instr.movement, moveToPair_reg_high _ _ _ _ hab, highWord_readCell, hseen, moveFromReg, withLowWord]
      rfl

/-- A write whose own cell gets the value it had leaves every cell as it was. -/
theorem movement_cell_of_same {j : Instr} {c : CellName} {s : State} (h : (j.movement c s).cell c = s.cell c)
    (c' : CellName) : (j.movement c s).cell c' = s.cell c' := by
  by_cases hc : c' = c
  · rw [hc, h]
  · exact movement_cell_other j c s hc

/-- Settles O28: the write puts back the words the read took. -/
theorem readThenWriteBackKeepsTheCell : Obligations.ReadThenWriteBackKeepsTheCell := by
  intro t t2 s c ht ht2 hne hw hr
  refine ⟨?word, fun hraw => ?pair⟩
  case word =>
    have one : (t != 15) = true := by simp [ht]
    obtain ⟨h1, h2⟩ := exec_twice (i := .mrcA32 .al t) (j := .mcrA32 .al t) one one rfl rfl hr hw
    refine ⟨_, _, h1, h2, fun c' => ?_, fun r => movement_reg_of_write (.mcrA32 .al t) c _ rfl r⟩
    rw [advancePc_cell, movement_cell_of_same (by simp [Instr.movement])]
    simp [Instr.movement]
  case pair =>
    have readPair : (t != 15 && t2 != 15 && t != t2) = true := by simp [ht, ht2, hne]
    have pair : (t != 15 && t2 != 15) = true := by simp [ht, ht2]
    obtain ⟨h1, h2⟩ := exec_twice (i := .mrrcA32 .al t t2) (j := .mcrrA32 .al t t2) readPair pair rfl rfl hr hw
    refine ⟨_, _, h1, h2, fun c' => ?_, fun r => movement_reg_of_write (.mcrrA32 .al t t2) c _ rfl r⟩
    rw [advancePc_cell, movement_cell_of_same (by
      simp [Instr.movement, moveToPair_reg_high _ _ _ _ hne, readCell_of_readAsWritten hraw])]
    simp [Instr.movement]

end Sys2Proof.Machine


/-! PROOFS of the family of runs, 10_state.md sections 1, 6, 7 and 10 and 60_exceptions.md sections 3 and 5. First the
frame of a step, then runs by their first step, then changes of the state that no run sees, then the statements. -/

namespace Sys2Proof.Machine

/-! ### The frame of a step -/

section Step
variable {s t : State}

/-- What a step keeps and how it moves pc and the inputs. -/
theorem step_frame (h : step s = .next t) :
    t.pc = s.pc + 4 ∧ t.mem = s.mem ∧ t.config = s.config ∧ t.env = s.env ∧
      t.laterInputs = s.laterInputs.tail := by
  obtain ⟨i, u, -, hu, rfl⟩ := step_next h
  obtain ⟨hpc, hmem, hconfig, henv, -, hlater⟩ := exec_frame hu
  simp [hpc, hmem, hconfig, henv, hlater, nextInputs_laterInputs]

/-- No admitted form names x[15], so no step writes it (R63). -/
theorem not_mem_destinations_of_admitted {i : Instr} (h : i.admitted = true) : 15 ∉ i.destinations := by
  cases i <;> simp_all [Instr.admitted, Instr.destinations, eq_comm (a := (15 : RegNum))]

theorem step_reg15 (h : step s = .next t) : t.reg 15 = s.reg 15 := by
  obtain ⟨i, u, -, hu, rfl⟩ := step_next h
  have hreg : u.nextInputs.reg 15 = u.reg 15 := by simp only [State.reg, nextInputs_regs]
  rw [hreg, exec_reg_other hu (not_mem_destinations_of_admitted (exec_next hu).1)]

theorem LaunchOk.congr (hl : LaunchOk s) (hconfig : t.config = s.config) (henv : t.env = s.env) : LaunchOk t := by
  unfold LaunchOk at hl ⊢
  rwa [hconfig, henv]

end Step

/-- Settles O29: a step moves pc by 4 and leaves the text, the parameters and the environment. -/
theorem stepKeepsTheRunInvariant : Obligations.StepKeepsTheRunInvariant := by
  intro s t hinv h
  obtain ⟨hpc, hmem, hconfig, henv, -⟩ := step_frame h
  refine ⟨hmem ▸ hinv.textCanonical, ?_, hinv.launch.congr hconfig henv⟩
  have haligned := hinv.pcAligned
  rw [hpc, BitVec.toNat_add, show (4 : Word).toNat = 4 from rfl]
  omega

/-- Settles O30: no text, pc 0, and EL3 using AArch32. -/
theorem runInvariantHoldsAtReset : Obligations.RunInvariantHoldsAtReset := by
  have hinv : ∀ d dS dNS : DWord, Inv (State.resetDraw d dS dNS) := fun d dS dNS => by
    refine ⟨rfl, rfl, ?_⟩
    simp [LaunchOk, Env.atReset, Config.atReset]
  exact ⟨hinv 0 0 0, hinv⟩

/-- Settles O34. -/
theorem onlyMcrrChangesBits63To32 : Obligations.OnlyMcrrChangesBits63To32 := by
  intro s t c h hne
  obtain ⟨i, u, hi, hu, rfl⟩ := step_next h
  rw [nextInputs_cell] at hne
  refine ⟨i, hi, ?_, ?_⟩
  · by_contra hm
    exact hne (exec_highWord hu (by simpa using hm) c)
  · by_contra hsel
    exact hne (congrArg _ (exec_cell_other hu hsel))

/-! ### A run by its first step -/

section Run
variable {s t : State} {n : Nat}

theorem runEnd_of_next (h : step s = .next t) (n : Nat) : runEnd (n + 1) s = runEnd n t := by
  simp [runEnd, h]

/-- A run of one step more than none: the step answers a next state, or the run ends in the state it started from. -/
theorem runEnd_succ_cases (n : Nat) (s : State) :
    (∃ t, step s = .next t ∧ runEnd (n + 1) s = runEnd n t) ∨
    (∃ f, step s = .fault f ∧ runEnd (n + 1) s = .fault f s) ∨
    (step s = .refused .endOfProgram ∧ runEnd (n + 1) s = .normal s) ∨
    (∃ r, r ≠ .endOfProgram ∧ step s = .refused r ∧ runEnd (n + 1) s = .refusal r s) := by
  cases h : step s with
  | next t => simp [runEnd, h]
  | fault f => simp [runEnd, h]
  | refused r => cases r <;> simp [runEnd, h]

end Run

/-- What `k` completed steps from `s` to `e` keep, and how far they move pc and the list of inputs. -/
structure Moved (k : Nat) (s e : State) : Prop where
  config : e.config = s.config
  env : e.env = s.env
  mem : e.mem = s.mem
  reg15 : e.reg 15 = s.reg 15
  pc : e.pc = s.pc + BitVec.ofNat 32 (4 * k)
  laterInputs : e.laterInputs = s.laterInputs.drop k

theorem Moved.refl (s : State) : Moved 0 s s := ⟨rfl, rfl, rfl, rfl, by simp, rfl⟩

theorem pc_add_four_mul (p : Word) (k : Nat) : p + 4 + BitVec.ofNat 32 (4 * k) = p + BitVec.ofNat 32 (4 * (k + 1)) := by
  rw [Nat.mul_succ, Nat.add_comm (4 * k), BitVec.ofNat_add, BitVec.add_assoc]
  rfl

theorem Moved.step {k : Nat} {s t e : State} (h : step s = .next t) (hm : Moved k t e) : Moved (k + 1) s e := by
  obtain ⟨hpc, hmem, hconfig, henv, hlater⟩ := step_frame h
  exact
    { config := hm.config.trans hconfig
      env := hm.env.trans henv
      mem := hm.mem.trans hmem
      reg15 := hm.reg15.trans (step_reg15 h)
      pc := by rw [hm.pc, hpc, pc_add_four_mul]
      laterInputs := by rw [hm.laterInputs, hlater, List.drop_tail] }

/-- A run of at most `n` steps completes some of them, all of them where it is still running. -/
theorem exists_moved (n : Nat) (s : State) :
    ∃ k, k ≤ n ∧ Moved k s (runEnd n s).state ∧ ((∃ e, runEnd n s = .running e) → k = n) := by
  induction n generalizing s with
  | zero => exact ⟨0, le_rfl, Moved.refl s, fun _ => rfl⟩
  | succ n ih =>
    obtain ⟨t, ht, hrun⟩ | ⟨f, -, hrun⟩ | ⟨-, hrun⟩ | ⟨r, -, -, hrun⟩ := runEnd_succ_cases n s <;> rw [hrun]
    · obtain ⟨k, hk, hmoved, hrunning⟩ := ih t
      exact ⟨k + 1, by omega, hmoved.step ht, fun h => by rw [hrunning h]⟩
    all_goals exact ⟨0, by omega, Moved.refl s, fun ⟨_, h⟩ => nomatch h⟩

/-- Settles O31. -/
theorem runChangesOnlyRegistersCellsAndPc : Obligations.RunChangesOnlyRegistersCellsAndPc := by
  intro n s e
  obtain ⟨k, hk, hmoved, hrunning⟩ := exists_moved n s
  exact ⟨hmoved.config, hmoved.env, hmoved.mem, hmoved.reg15, k, hk, hmoved.pc, hmoved.laterInputs,
    fun h => hrunning ⟨e, h⟩⟩

/-! ### Where a stopped run stands -/

/-- What is taken after exec changes no stop. -/
theorem afterExec_eq_fault_iff {o : Outcome} {f : Fault} : afterExec o = .fault f ↔ o = .fault f := by
  cases o <;> simp [afterExec]

theorem afterExec_eq_refused_iff {o : Outcome} {r : Refusal} : afterExec o = .refused r ↔ o = .refused r := by
  cases o <;> simp [afterExec]

/-- A step that faults is the fault of exec of the instruction fetched. -/
theorem step_fault {s : State} {f : Fault} (h : step s = .fault f) :
    ∃ i, fetch s = .ok i ∧ exec i s = .fault f := by
  cases hf : fetch s with
  | ok i =>
    rw [step_of_fetch hf, afterExec_eq_fault_iff] at h
    exact ⟨i, rfl, h⟩
  | error r => simp [step_of_fetch_error hf] at h

/-- exec never answers the end of the program, so it is the fetch that found no byte. -/
theorem read_of_step_endOfProgram {s : State} (h : step s = .refused .endOfProgram) :
    Memory.read s.mem s.pc.toNat = none := by
  by_contra hread
  obtain ⟨b, hb⟩ := Option.ne_none_iff_exists'.1 hread
  cases hf : fetch s with
  | ok i =>
    rw [step_of_fetch hf, afterExec_eq_refused_iff, exec_refused_iff (by simp)] at h
    cases i <;> simp [Instr.formRefusal, refuseWord_iff, refuseWritePair_iff, refuseReadPair_iff] at h
  | error r =>
    rw [step_of_fetch_error hf] at h
    obtain rfl := Host.Outcome.refused.inj h
    simp only [fetch, Memory.run, hb] at hf
    split at hf <;> cases hf

/-- The answer of the step that ended a run, where one did. -/
def RunEnd.stop : RunEnd → Option Outcome
  | .normal _ => some (.refused .endOfProgram)
  | .fault f _ => some (.fault f)
  | .refusal r _ => some (.refused r)
  | .running _ => none

/-- A run that has stopped stands where its last step was taken, and came there running. -/
theorem step_of_stop {n : Nat} {s : State} {o : Outcome} (h : (runEnd n s).stop = some o) :
    step (runEnd n s).state = o ∧ ∃ k, k < n ∧ runEnd k s = .running (runEnd n s).state := by
  induction n generalizing s with
  | zero => cases h
  | succ n ih =>
    obtain ⟨t, ht, hrun⟩ | ⟨f, hstep, hrun⟩ | ⟨hstep, hrun⟩ | ⟨r, -, hstep, hrun⟩ := runEnd_succ_cases n s <;>
      rw [hrun] at h ⊢
    · obtain ⟨hlast, k, hk, hrunning⟩ := ih h
      exact ⟨hlast, k + 1, by omega, (runEnd_of_next ht k).trans hrunning⟩
    all_goals
      obtain rfl := Option.some.inj h
      exact ⟨hstep, 0, by omega, rfl⟩

theorem ne_endOfProgram_of_refusal {n : Nat} {s t : State} {r : Refusal} (h : runEnd n s = .refusal r t) :
    r ≠ .endOfProgram := by
  induction n generalizing s with
  | zero => cases h
  | succ n ih =>
    obtain ⟨u, -, hrun⟩ | ⟨f, -, hrun⟩ | ⟨-, hrun⟩ | ⟨r', hr', -, hrun⟩ := runEnd_succ_cases n s <;>
      rw [hrun] at h
    · exact ih h
    · cases h
    · cases h
    · cases h
      exact hr'

/-- Settles O32. -/
theorem stoppedRunStandsBeforeItsLastStep : Obligations.StoppedRunStandsBeforeItsLastStep := by
  intro n s t
  refine ⟨fun f h => ?fault, fun h => ?normal, fun r h => ?refusal⟩
  case fault =>
    have hstop := step_of_stop (n := n) (s := s) (o := .fault f) (by rw [h]; rfl)
    rw [h] at hstop
    exact ⟨step_fault hstop.1, hstop.2⟩
  case normal =>
    have hstop := step_of_stop (n := n) (s := s) (o := .refused .endOfProgram) (by rw [h]; rfl)
    rw [h] at hstop
    exact ⟨read_of_step_endOfProgram hstop.1, hstop.2⟩
  case refusal =>
    have hstop := step_of_stop (n := n) (s := s) (o := .refused r) (by rw [h]; rfl)
    rw [h] at hstop
    exact ⟨hstop.1, ne_endOfProgram_of_refusal h, hstop.2⟩

/-! ### Safe runs at EL2 -/

/-- fetch reads the text, pc, the instruction set and the byte order. -/
theorem fetch_congr {s t : State} (hmem : t.mem = s.mem) (hpc : t.pc = s.pc) (hiset : t.env.iset = s.env.iset)
    (hend : t.config.ifetchBigEndian = s.config.ifetchBigEndian) : fetch t = fetch s := by
  unfold fetch
  rw [hmem, hpc, hiset, hend]

theorem safeFor_of_next {s t : State} (h : step s = .next t) {n : Nat} (hsafe : SafeFor n t) : SafeFor (n + 1) s := by
  unfold SafeFor
  rw [runEnd_of_next h]
  exact hsafe

theorem safeFor_of_end {s : State} (h : step s = .refused .endOfProgram) (n : Nat) : SafeFor n s := by
  cases n with
  | zero => trivial
  | succ n => simp [SafeFor, runEnd, h]

/-- Settles O33: each step at EL2 completes or skips an admitted access, and the rest of the text stands before the next
one. -/
theorem admittedTextAtEl2RunsSafely : Obligations.AdmittedTextAtEl2RunsSafely := by
  intro n
  induction n with
  | zero => exact fun _ _ _ _ => trivial
  | succ n ih =>
    intro s hel hcap htext
    have hnow := htext 0 (by omega)
    simp only [Nat.mul_zero, BitVec.add_zero] at hnow
    obtain hend | ⟨i, hi, ha⟩ := hnow
    · exact safeFor_of_end (step_of_fetch_error hend) _
    · obtain ⟨u, hu⟩ := accessAtEl2AlwaysCompletes i s ha hel hcap
      have hstep : step s = .next u.nextInputs := by rw [step_of_fetch hi, hu]; rfl
      obtain ⟨hpc, hmem, hconfig, henv, -⟩ := step_frame hstep
      refine safeFor_of_next hstep (ih _ (by rw [henv, hel]) (by rw [hconfig, hcap]) fun k hk => ?_)
      have hlater := htext (k + 1) (by omega)
      have hfetch : ∀ {a b : Word}, a = b →
          fetch { u.nextInputs with pc := a } = fetch { s with pc := b } := fun hab =>
        fetch_congr hmem hab (congrArg Env.iset henv) (congrArg Config.ifetchBigEndian hconfig)
      have hat : u.nextInputs.pc + BitVec.ofNat 32 (4 * k) = s.pc + BitVec.ofNat 32 (4 * (k + 1)) := by
        rw [hpc, pc_add_four_mul]
      simp only [hfetch hat]
      exact hlater

/-! ### Changes of the state that no run sees -/

/-- A change of the state that commutes with every step from the states of a set that steps do not leave, commutes with
every run from them. -/
theorem runEnd_commutes {f : State → State} {P : State → Prop}
    (hstep : ∀ s, P s → step (f s) = mapNext f (step s))
    (hkeep : ∀ s t, P s → step s = .next t → P t) (n : Nat) (s : State) (hs : P s) :
    runEnd n (f s) = (runEnd n s).map f := by
  induction n generalizing s with
  | zero => rfl
  | succ n ih =>
    have hf := hstep s hs
    cases h : step s with
    | next t =>
      rw [h] at hf
      rw [runEnd_of_next h, runEnd_of_next hf, ih t (hkeep s t hs h)]
    | fault r =>
      rw [h] at hf
      simp only [runEnd, h, hf, mapNext, RunEnd.map]
    | refused r =>
      rw [h] at hf
      cases r <;> simp only [runEnd, h, hf, mapNext, RunEnd.map]

/-- A change of the state that fetch, exec and the taking of inputs do not see commutes with the step. -/
theorem step_commutes {f : State → State} {s : State} (hfetch : fetch (f s) = fetch s)
    (hexec : ∀ i, exec i (f s) = mapNext f (exec i s)) (hinputs : ∀ u : State, (f u).nextInputs = f u.nextInputs) :
    step (f s) = mapNext f (step s) := by
  cases hf : fetch s with
  | error r =>
    rw [step_of_fetch_error hf, step_of_fetch_error (hfetch.trans hf)]
    rfl
  | ok i =>
    rw [step_of_fetch hf, step_of_fetch (hfetch.trans hf), hexec]
    cases exec i s with
    | next u => exact congrArg Host.Outcome.next (hinputs u)
    | fault r | refused r => rfl

/-! ### Another value in a cell that no access selects -/

section Cell
variable {s : State} {c : CellName}

/-- An access neither reads nor writes a cell that its tests do not reach. -/
theorem exec_withCell (i : Instr) (hc : presentTarget i.direction i.ec s ≠ .ok c) (v : DWord) :
    exec i (s.withCell c v) = mapNext (State.withCell c v) (exec i s) := by
  refine exec_commutes (presentTarget_withCell i.direction i.ec c v s) ?_ ?_ fun c' htgt => ?_
  · cases i <;> cases c <;> rfl
  · intro u
    cases c <;> rfl
  · have hne : c' ≠ c := fun e => hc (e ▸ htgt)
    exact movement_withCell_other i hne v s

theorem fetch_withCell (v : DWord) (s : State) : fetch (s.withCell c v) = fetch s := by
  cases c <;> rfl

theorem nextInputs_withCell (v : DWord) (u : State) :
    (u.withCell c v).nextInputs = u.nextInputs.withCell c v := by
  unfold State.nextInputs
  cases c <;> cases h : u.laterInputs <;> simp [State.withCell, State.setCell, h]

/-- Where SelectInstance does not give a cell, no run reads or writes it: a step keeps what SelectInstance reads. -/
theorem runEnd_withCell (hc : selectInstance s.config s.env.el s.env.scrNS ≠ some c) (n : Nat) (v : DWord) :
    runEnd n (s.withCell c v) = (runEnd n s).map (State.withCell c v) := by
  refine runEnd_commutes (P := fun u => selectInstance u.config u.env.el u.env.scrNS ≠ some c) (fun u hu => ?_)
    (fun u t hu ht => ?_) n s hc
  · exact step_commutes (fetch_withCell v u)
      (fun i => exec_withCell i (fun h => hu (accessTarget_ok (presentTarget_ok h).2)) v) (nextInputs_withCell v)
  · obtain ⟨-, -, hconfig, henv, -⟩ := step_frame ht
    rwa [hconfig, henv]

end Cell

/-- Settles O35: below EL3 SelectInstance never gives TTBR0_S (R12). -/
theorem secureCellIsHiddenBelowEl3 : Obligations.SecureCellIsHiddenBelowEl3 := by
  intro n s v hel
  refine runEnd_withCell ?_ n v
  cases hlevel : s.env.el with
  | el0 => simp [selectInstance]
  | el1 | el2 => cases h : s.config.el3IsAArch32 <;> simp [selectInstance, h]
  | el3 => exact absurd hlevel hel

/-- Settles O36: under the launch premises SelectInstance gives no cell of the other configuration (R12, R13). -/
theorem unreachableCellsAreNeitherReadNorWritten : Obligations.UnreachableCellsAreNeitherReadNorWritten := by
  intro n s v hlaunch
  refine ⟨fun h32 => runEnd_withCell ?_ n v, fun hnot => ⟨runEnd_withCell ?_ n v, runEnd_withCell ?_ n v⟩⟩
  · have hbank : s.config.el3IsAArch32 = true := by simp [Config.el3IsAArch32, h32]
    cases s.env.el <;> cases s.env.scrNS <;> simp [selectInstance, hbank]
  all_goals
    have hbank : s.config.el3IsAArch32 = false := by simpa [Config.el3IsAArch32] using hnot
    have hel : s.env.el ≠ .el3 := fun h => hnot (hlaunch.1 h)
    cases hlevel : s.env.el with
    | el3 => exact absurd hlevel hel
    | el0 | el1 | el2 => simp [selectInstance, hbank]

/-! ### Another environment that no step reads -/

theorem nextInputs_withEnv (e : Env) (u : State) : (u.withEnv e).nextInputs = u.nextInputs.withEnv e := by
  unfold State.nextInputs
  cases h : u.laterInputs <;> simp [State.withEnv, h]

/-- Settles O37: the outcome table, the condition and the data movements read no field of TTBCR and no TTBR1.ASID. -/
theorem runsDoNotReadTtbcr : Obligations.RunsDoNotReadTtbcr := by
  intro n s eae a1 k t0sz asid e
  refine runEnd_commutes (P := fun u => u.env = s.env) (fun u hu => ?_) (fun u t hu ht => ?_) n s rfl
  · have hel : e.el = u.env.el := by rw [hu]
    have htable (d : Direction) : accessTable d (u.withEnv e) = accessTable d u :=
      accessTable_withEnv hel (by rw [hu]) (fun _ _ _ => by cases d <;> simp [ctl64, State.withEnv, e, hu])
        (fun _ _ _ => by cases d <;> simp [ctl32, State.withEnv, e, hu])
    refine step_commutes (fetch_congr rfl rfl (by rw [hu]; rfl) rfl) (fun i => ?_) (nextInputs_withEnv e)
    exact exec_commutes (presentTarget_congr (s := u) (u := u.withEnv e) rfl (htable i.direction) i.ec)
      (by cases i <;> rfl) (fun _ => rfl) (fun c _ => movement_withEnv i c e u)
  · obtain ⟨-, -, -, henv, -⟩ := step_frame ht
    rw [henv, hu]

/-! ### The absent register -/

theorem exec_ne_next_of_absent {s : State} (h : s.config.el1AArch32Capable = false) (i : Instr) (t : State) :
    exec i s ≠ .next t := by
  intro ht
  obtain ⟨-, hcap, -⟩ := exec_next ht
  simp [h] at hcap

theorem runEnd_state_of_absent {s : State} (h : s.config.el1AArch32Capable = false) (n : Nat) :
    (runEnd n s).state = s := by
  cases n with
  | zero => rfl
  | succ n =>
    obtain ⟨t, ht, -⟩ | ⟨f, -, hrun⟩ | ⟨-, hrun⟩ | ⟨r, -, -, hrun⟩ := runEnd_succ_cases n s
    · obtain ⟨i, u, -, hu, -⟩ := step_next ht
      exact absurd hu (exec_ne_next_of_absent h i u)
    all_goals exact congrArg RunEnd.state hrun

/-- Without the register the tests raise before any cell is chosen, so no step sees one. -/
theorem runEnd_withCell_of_absent {s : State} (h : s.config.el1AArch32Capable = false) (n : Nat) (c : CellName)
    (v : DWord) : runEnd n (s.withCell c v) = (runEnd n s).map (State.withCell c v) := by
  refine runEnd_commutes (P := fun u => u.config.el1AArch32Capable = false) (fun u hu => ?_) (fun u t hu ht => ?_) n s h
  · exact step_commutes (fetch_withCell v u) (fun i => exec_withCell i (by simp [presentTarget_of_absent hu]) v)
      (nextInputs_withCell v)
  · obtain ⟨-, -, hconfig, -⟩ := step_frame ht
    rwa [hconfig]

/-- Settles O50. -/
theorem absentRegisterHasNoStorage : Obligations.AbsentRegisterHasNoStorage := fun s h =>
  ⟨exec_ne_next_of_absent h, fun n c => by rw [runEnd_state_of_absent h n],
    fun n c v => runEnd_withCell_of_absent h n c v, fun _ => by simp [State.selectedWalkStart, h]⟩

end Sys2Proof.Machine


/-! PROOFS of the fields of a cell value and of what it says to a table walk, 10_state.md sections 3 and 4 and
20_memory.md section 1. First the two layouts, then the bits of a base and of its alignment, then a walk start by its
cases, then the walk from the selected cell. -/

namespace Sys2Proof.Machine

/-- Settles O48: each law is one of the rules of the two words of a cell. -/
theorem wordsOfACellSplitAndJoin : Obligations.WordsOfACellSplitAndJoin := fun hi lo w v =>
  ⟨highWord_joinWords hi lo, lowWord_joinWords hi lo, joinWords_highWord_lowWord v, rfl, lowWord_joinWords _ w,
    highWord_joinWords _ w⟩

/-! ### The two layouts -/

/-- IRGN's two bits, taken apart as the 32-bit layout stores them (R20). -/
theorem irgn_split (hi lo : BitVec 1) : (hi ++ lo).extractLsb' 0 1 = lo ∧ (hi ++ lo).extractLsb' 1 1 = hi :=
  ⟨BitVec.extractLsb'_append_eq_right, BitVec.extractLsb'_append_eq_left⟩

theorem pack_fields32 (cell : DWord) : (fields32 cell).pack = cell := by
  have irgn := irgn_split (cell.extractLsb' 0 1) (cell.extractLsb' 6 1)
  calc (fields32 cell).pack
      = cell.extractLsb' 32 32 ++ cell.extractLsb' 7 25 ++ cell.extractLsb' 6 1 ++ cell.extractLsb' 5 1 ++
          cell.extractLsb' 3 2 ++ cell.extractLsb' 2 1 ++ cell.extractLsb' 1 1 ++ cell.extractLsb' 0 1 := by
        simp only [Fields32.pack, fields32, irgn]
    _ = cell.extractLsb' 0 64 := by
        repeat rw [extractLsb'_append cell]
        all_goals rfl
    _ = cell := BitVec.extractLsb'_eq_self

theorem pack_fields64 (cell : DWord) : (fields64 cell).pack = cell := by
  calc (fields64 cell).pack
      = cell.extractLsb' 0 64 := by
        simp only [Fields64.pack, fields64]
        repeat rw [extractLsb'_append cell]
        all_goals rfl
    _ = cell := BitVec.extractLsb'_eq_self

theorem irgn_join (v : BitVec 2) : v.extractLsb' 1 1 ++ v.extractLsb' 0 1 = v :=
  (extractLsb'_append v rfl).trans BitVec.extractLsb'_eq_self

/-- Two words joined determine each other's halves. -/
theorem append_inj {n m : Nat} {hi hi' : BitVec n} {lo lo' : BitVec m} (h : hi ++ lo = hi' ++ lo') :
    hi = hi' ∧ lo = lo' := by
  have hhi := congrArg (BitVec.extractLsb' m n) h
  have hlo := congrArg (BitVec.extractLsb' 0 m) h
  rw [BitVec.extractLsb'_append_eq_left, BitVec.extractLsb'_append_eq_left] at hhi
  rw [BitVec.extractLsb'_append_eq_right, BitVec.extractLsb'_append_eq_right] at hlo
  exact ⟨hhi, hlo⟩

theorem pack32_injective {f g : Fields32} (h : f.pack = g.pack) : f = g := by
  obtain ⟨h, irgn1⟩ := append_inj h
  obtain ⟨h, s⟩ := append_inj h
  obtain ⟨h, imp⟩ := append_inj h
  obtain ⟨h, rgn⟩ := append_inj h
  obtain ⟨h, nos⟩ := append_inj h
  obtain ⟨h, irgn0⟩ := append_inj h
  obtain ⟨res0, ttb0⟩ := append_inj h
  have irgn : f.irgn = g.irgn := by rw [← irgn_join f.irgn, irgn0, irgn1, irgn_join]
  cases f
  cases g
  simp_all

theorem pack64_injective {f g : Fields64} (h : f.pack = g.pack) : f = g := by
  obtain ⟨h, cnp⟩ := append_inj h
  obtain ⟨h, baddr⟩ := append_inj h
  obtain ⟨res0, asid⟩ := append_inj h
  cases f
  cases g
  simp_all

/-- Settles O40. -/
theorem fieldsOfEachLayoutAreTheWholeCell : Obligations.FieldsOfEachLayoutAreTheWholeCell :=
  ⟨fun cell => ⟨pack_fields32 cell, pack_fields64 cell⟩,
    fun f => pack32_injective (pack_fields32 f.pack), fun f => pack64_injective (pack_fields64 f.pack)⟩

/-! ### Alignment -/

section Alignment
variable {cell : DWord} {n : Fin 8}

theorem misaligned32_iff :
    misaligned32 cell n = true ↔ ∃ k, 7 ≤ k ∧ k < baseShift32 n ∧ cell.getLsbD k = true := by
  have hx : 7 + (baseShift32 n - 7) = baseShift32 n := by
    unfold baseShift32
    omega
  rw [misaligned32, extractLsb'_ne_zero_iff, hx]

theorem misaligned64_iff :
    misaligned64 cell n = true ↔ ∃ k, 3 ≤ k ∧ k < baseShift64 n ∧ cell.getLsbD k = true := by
  have hx : 3 + (baseShift64 n - 3) = baseShift64 n := by
    unfold baseShift64
    split_ifs <;> omega
  rw [misaligned64, extractLsb'_ne_zero_iff, hx]

/-- No bit of a range is set: the alignment of a base, bit by bit. -/
theorem not_exists_bit_iff {lo hi : Nat} :
    (¬ ∃ k, lo ≤ k ∧ k < hi ∧ cell.getLsbD k = true) ↔ ∀ k, lo ≤ k → k < hi → cell.getLsbD k = false := by
  simp

theorem aligned32_iff :
    misaligned32 cell n = false ↔ ∀ k, 7 ≤ k → k < baseShift32 n → cell.getLsbD k = false := by
  rw [← not_exists_bit_iff, ← misaligned32_iff, Bool.not_eq_true]

theorem aligned64_iff :
    misaligned64 cell n = false ↔ ∀ k, 3 ≤ k → k < baseShift64 n → cell.getLsbD k = false := by
  rw [← not_exists_bit_iff, ← misaligned64_iff, Bool.not_eq_true]

theorem addressSizeFault64_iff :
    addressSizeFault64 cell = true ↔ ∃ k, 40 ≤ k ∧ k < 48 ∧ cell.getLsbD k = true :=
  extractLsb'_ne_zero_iff cell 40 8

theorem no_addressSizeFault64_iff :
    addressSizeFault64 cell = false ↔ ∀ k, 40 ≤ k → k < 48 → cell.getLsbD k = false := by
  rw [← not_exists_bit_iff, ← addressSizeFault64_iff, Bool.not_eq_true]

end Alignment

/-- Settles O43: a larger N asks for fewer zeros, and bit 13 - N alone tells N from N + 1. -/
theorem alignmentDependsOnTtbcrN : Obligations.AlignmentDependsOnTtbcrN := by
  refine ⟨fun cell n m hle h => ?larger, fun n m hm => ⟨BitVec.twoPow 64 (13 - n.val), ?aligned, ?misaligned⟩⟩
  case larger =>
    rw [aligned32_iff] at h ⊢
    have hshift : baseShift32 m ≤ baseShift32 n := Nat.sub_le_sub_left hle 14
    exact fun k h7 hk => h k h7 (by omega)
  case aligned =>
    rw [aligned32_iff]
    intro k _ hk
    have hne : 13 - n.val ≠ k := by
      unfold baseShift32 at hk
      omega
    simp [BitVec.getLsbD_twoPow, hne]
  case misaligned =>
    rw [misaligned32_iff]
    exact ⟨13 - n.val, by omega, by unfold baseShift32; omega, by simp [BitVec.getLsbD_twoPow]; omega⟩

/-! ### The table base -/

section Base
variable {w : Nat} (v : BitVec w) (x : Nat)

theorem toNat_clearBelow : (clearBelow v x).toNat = v.toNat / 2 ^ x * 2 ^ x := by
  have hlt : v.toNat / 2 ^ x * 2 ^ x < 2 ^ w := (Nat.div_mul_le_self v.toNat (2 ^ x)).trans_lt v.isLt
  rw [clearBelow, BitVec.toNat_shiftLeft, BitVec.toNat_ushiftRight, Nat.shiftRight_eq_div_pow, Nat.shiftLeft_eq,
    Nat.mod_eq_of_lt hlt]

theorem toNat_clearBelow_mod : (clearBelow v x).toNat % 2 ^ x = 0 := by
  rw [toNat_clearBelow, Nat.mul_mod_left]

end Base

section TableBase
variable {cell : DWord} {n : Fin 8}

theorem tableBase32_of_misaligned (h : misaligned32 cell n = true) : tableBase32 cell n = .error .misalignedBase32 := by
  simp [tableBase32, h]

theorem tableBase32_of_aligned (h : misaligned32 cell n = false) :
    tableBase32 cell n = .ok (clearBelow (lowWord cell) (baseShift32 n)) := by
  simp [tableBase32, h]

theorem tableBase64_of_misaligned (h : misaligned64 cell n = true) : tableBase64 cell n = .error .misalignedBase64 := by
  simp [tableBase64, h]

theorem tableBase64_of_aligned (h : misaligned64 cell n = false) :
    tableBase64 cell n = .ok (clearBelow (cell.extractLsb' 0 48) (baseShift64 n)) := by
  simp [tableBase64, h]

theorem getLsbD_base32 (x : Nat) {k : Nat} (hk : k < 32) :
    (clearBelow (lowWord cell) x).getLsbD k = (decide (x ≤ k) && cell.getLsbD k) := by
  rw [getLsbD_clearBelow _ _ _ hk, lowWord, BitVec.getLsbD_extractLsb']
  simp [hk]

theorem getLsbD_base64 (x : Nat) {k : Nat} (hk : k < 48) :
    (clearBelow (cell.extractLsb' 0 48) x).getLsbD k = (decide (x ≤ k) && cell.getLsbD k) := by
  rw [getLsbD_clearBelow _ _ _ hk, BitVec.getLsbD_extractLsb']
  simp [hk]

end TableBase

/-- Settles O41. -/
theorem tableBase32IsTheBitsFromX : Obligations.TableBase32IsTheBitsFromX := fun _ _ =>
  ⟨fun h => tableBase32_of_misaligned (misaligned32_iff.2 h),
    fun h => ⟨_, tableBase32_of_aligned (aligned32_iff.2 h), toNat_clearBelow_mod _ _, fun _ => getLsbD_base32 _⟩⟩

/-- Settles O42. -/
theorem tableBase64IsTheBitsFromX : Obligations.TableBase64IsTheBitsFromX := fun _ _ =>
  ⟨fun h => tableBase64_of_misaligned (misaligned64_iff.2 h),
    fun h => ⟨_, tableBase64_of_aligned (aligned64_iff.2 h), toNat_clearBelow_mod _ _, fun _ => getLsbD_base64 _⟩⟩

/-! ### The start of a walk -/

section WalkStart
variable {c : Config} {e : Env} {cell : DWord}

theorem walkStart_of_bits32 (hlayout : e.ttbcrEAE = false) (p : Bool) :
    walkStart c e p cell = walkStart32 c e cell := by
  simp [walkStart, layoutOf, hlayout]

theorem walkStart_of_bits64 (hlayout : e.ttbcrEAE = true) (p : Bool) :
    walkStart c e p cell = walkStart64 c e p cell := by
  simp [walkStart, layoutOf, hlayout]

theorem walkStart32_of_misaligned (h : misaligned32 cell e.ttbcrN = true) :
    walkStart32 c e cell = .error .misalignedBase32 := by
  simp [walkStart32, tableBase32_of_misaligned h]

/-- What a walk is handed under the 32-bit layout. -/
def table32 (c : Config) (e : Env) (cell : DWord) : WalkTable where
  base := (clearBelow (lowWord cell) (baseShift32 e.ttbcrN)).zeroExtend 48
  attrs := some (walkAttrs32 cell)
  asid := none
  cnp := none
  imp := impBit c .bits32 cell

theorem walkStart32_of_aligned (h : misaligned32 cell e.ttbcrN = false) :
    walkStart32 c e cell = .ok (.table (table32 c e cell)) := by
  rw [walkStart32, tableBase32_of_aligned h]
  rfl

/-- What a walk is handed under the 64-bit layout. -/
def table64 (c : Config) (e : Env) (cell : DWord) : WalkTable where
  base := clearBelow (cell.extractLsb' 0 48) (baseShift64 e.ttbcrT0SZ)
  attrs := none
  asid := some (currentASID64 e.ttbcrA1 e.ttbr1ASID cell)
  cnp := cnpBit c .bits64 cell
  imp := none

theorem walkStart64_of_broken_promise (h : cnpBit c .bits64 cell = some true) :
    walkStart64 c e false cell = .error .cnpPromiseBroken := by
  simp [walkStart64, h]

theorem walkStart64_of_misaligned (h : misaligned64 cell e.ttbcrT0SZ = true) :
    walkStart64 c e true cell = .error .misalignedBase64 := by
  simp [walkStart64, tableBase64_of_misaligned h]

theorem walkStart64_of_fault (h : misaligned64 cell e.ttbcrT0SZ = false) (hfault : addressSizeFault64 cell = true) :
    walkStart64 c e true cell = .ok .addressSizeFault := by
  simp [walkStart64, tableBase64_of_aligned h, hfault]

theorem walkStart64_of_aligned (h : misaligned64 cell e.ttbcrT0SZ = false) (hfault : addressSizeFault64 cell = false) :
    walkStart64 c e true cell = .ok (.table (table64 c e cell)) := by
  simp [walkStart64, tableBase64_of_aligned h, hfault, table64, walkAttrs, impBit]

end WalkStart

/-! ### Reserved bits -/

section Reserved
variable {cell : DWord}

theorem getLsbD_bitRange {lo hi k : Nat} (hk : k < 64) :
    (bitRange lo hi).getLsbD k = (decide (lo ≤ k) && decide (k < hi)) := by
  have hlo : k - lo < 64 := by omega
  have hhi : k - hi < 64 := by omega
  rw [bitRange, BitVec.getLsbD_and, BitVec.getLsbD_not, BitVec.getLsbD_shiftLeft, BitVec.getLsbD_shiftLeft,
    BitVec.getLsbD_allOnes, BitVec.getLsbD_allOnes, Bool.eq_iff_iff]
  simp [hk, hlo, hhi]

/-- A value with zeros in the bits of a mask has a zero wherever the mask has a one. -/
theorem getLsbD_of_masked {mask : DWord} (h : cell &&& mask = 0) {k : Nat} (hk : mask.getLsbD k = true) :
    cell.getLsbD k = false := by
  have hbit := congrArg (fun v : DWord => v.getLsbD k) h
  simpa [hk] using hbit

/-- A portable value has an aligned base (70_reset_and_hazards.md R97 (c)). -/
theorem aligned32_of_portable {c : Config} {n : Fin 8} (h : cell &&& reserved32 c n = 0) :
    misaligned32 cell n = false := by
  rw [aligned32_iff]
  intro k h7 hk
  have hk64 : k < 64 := hk.trans_le (by unfold baseShift32; omega)
  refine getLsbD_of_masked h ?_
  simp [reserved32, getLsbD_bitRange hk64, h7, hk]

theorem aligned64_of_portable {c : Config} {n : Fin 8} (h : cell &&& reserved64 c n = 0) :
    misaligned64 cell n = false := by
  rw [aligned64_iff]
  intro k h3 hk
  have hk64 : k < 64 := hk.trans_le (by unfold baseShift64; split_ifs <;> omega)
  refine getLsbD_of_masked h ?_
  simp [reserved64, getLsbD_bitRange hk64, hk, show 1 ≤ k by omega]

end Reserved

/-- Settles O44. -/
theorem portableValueStartsAWalk : Obligations.PortableValueStartsAWalk := by
  intro c e cell h
  cases hlayout : e.ttbcrEAE with
  | false =>
    have hmask : cell &&& reserved32 c e.ttbcrN = 0 := by simpa [portableValue, layoutOf, hlayout] using h
    rw [walkStart_of_bits32 hlayout, walkStart32_of_aligned (aligned32_of_portable hmask)]
    exact ⟨_, rfl⟩
  | true =>
    have hmask : cell &&& reserved64 c e.ttbcrT0SZ = 0 := by simpa [portableValue, layoutOf, hlayout] using h
    have haligned := aligned64_of_portable hmask
    rw [walkStart_of_bits64 hlayout]
    cases hfault : addressSizeFault64 cell with
    | true => exact ⟨_, walkStart64_of_fault haligned hfault⟩
    | false => exact ⟨_, walkStart64_of_aligned haligned hfault⟩

/-- Bits [47:40] are all that stands above 2^40 in a base of 48 bits. -/
theorem base64_lt {cell : DWord} (h : ∀ k, 40 ≤ k → k < 48 → cell.getLsbD k = false) (x : Nat) :
    (clearBelow (cell.extractLsb' 0 48) x).toNat < 2 ^ 40 := by
  apply Nat.lt_pow_two_of_testBit
  intro k hk
  rw [BitVec.testBit_toNat]
  by_cases h48 : k < 48
  · rw [getLsbD_base64 x h48, h k hk h48, Bool.and_false]
  · exact BitVec.getLsbD_of_ge _ _ (by omega)

/-- Settles O45. -/
theorem addressSizeFaultWhenBits47To40AreSet : Obligations.AddressSizeFaultWhenBits47To40AreSet := by
  intro c e cell
  refine ⟨fun hlayout p => ?bits32, fun hlayout haligned => ?bits64⟩
  case bits32 =>
    rw [walkStart_of_bits32 hlayout]
    cases h : misaligned32 cell e.ttbcrN with
    | true => simp [walkStart32_of_misaligned h]
    | false => simp [walkStart32_of_aligned h]
  case bits64 =>
    rw [walkStart_of_bits64 hlayout]
    exact ⟨fun hset => walkStart64_of_fault haligned (addressSizeFault64_iff.2 hset), fun hzero =>
      ⟨_, walkStart64_of_aligned haligned (no_addressSizeFault64_iff.2 hzero), base64_lt hzero _⟩⟩

/-! ### The walk from the selected cell -/

section Selected
variable {s : State}

theorem selectedWalkStart_of_select {c : CellName} (hcap : s.config.el1AArch32Capable = true)
    (hsel : selectInstance s.config s.env.el s.env.scrNS = some c) (p : Bool) :
    s.selectedWalkStart p = some (walkStart s.config s.env p (s.cell c)) := by
  simp [State.selectedWalkStart, hcap, hsel]

theorem select_of_reaches {d : Direction} {c : CellName} (h : Reaches d s c) :
    selectInstance s.config s.env.el s.env.scrNS = some c :=
  accessTarget_ok (presentTarget_ok (presentTarget_of_reaches h 0)).2

end Selected

/-- Settles O51. -/
theorem walkStartsFromTheSelectedCell : Obligations.WalkStartsFromTheSelectedCell := by
  intro s p hcap startsFrom
  have start (c : CellName) (hsel : selectInstance s.config s.env.el s.env.scrNS = some c) : startsFrom (s.cell c) :=
    selectedWalkStart_of_select hcap hsel p
  refine ⟨fun hel => ?el0, fun hel => ⟨fun h32 => start .ttbr0NS ?_, fun hnot => start .ttbr0 ?_⟩,
    fun hel => ⟨fun hns => start .ttbr0S ?_, fun hns => start .ttbr0NS ?_⟩⟩
  case el0 => simp [State.selectedWalkStart, selectInstance, hel]
  · have hbank : s.config.el3IsAArch32 = true := by simp [Config.el3IsAArch32, h32]
    obtain hel | hel := hel <;> simp [selectInstance, hel, hbank]
  · have hbank : s.config.el3IsAArch32 = false := by simpa [Config.el3IsAArch32] using hnot
    obtain hel | hel := hel <;> simp [selectInstance, hel, hbank]
  · simp [selectInstance, hel, hns]
  · simp [selectInstance, hel, hns]

/-- MCRR stores the pair and the walk of the state after it starts from that value. -/
theorem exec_moveFromPair_walk {i : Instr} {t t2 : RegNum} {s : State} {c : CellName} (ha : i.admitted = true)
    (hm : i.movement = moveFromPair t t2) (hd : i.direction = .write) (hr : Reaches .write s c) (hp : Passes i s) :
    ∃ u, exec i s = .next u ∧ u.cell c = joinWords (s.reg t2) (s.reg t) ∧ ∀ p,
      u.selectedWalkStart p = some (walkStart s.config s.env p (joinWords (s.reg t2) (s.reg t))) := by
  have hcell : (i.movement c s).advancePc.cell c = joinWords (s.reg t2) (s.reg t) := by simp [hm]
  refine ⟨_, exec_of_reaches ha (hd ▸ hr) hp, hcell, fun p => ?_⟩
  rw [selectedWalkStart_of_select (by simpa using hr.1) (by simpa using select_of_reaches hr), hcell]
  simp

/-- Settles O46. -/
theorem faultyBaseIsStoredAndStopsTheWalk : Obligations.FaultyBaseIsStoredAndStopsTheWalk := by
  intro q t t2 s c ht ht2 hr hlayout v
  have stops {i : Instr} (ha : i.admitted = true) (hm : i.movement = moveFromPair t t2) (hd : i.direction = .write)
      (hp : Passes i s) : ∃ u, exec i s = .next u ∧ u.cell c = v ∧
        (misaligned64 v s.env.ttbcrT0SZ = true → u.selectedWalkStart true = some (.error .misalignedBase64)) ∧
        (misaligned64 v s.env.ttbcrT0SZ = false → (∃ k, 40 ≤ k ∧ k < 48 ∧ v.getLsbD k = true) →
          u.selectedWalkStart true = some (.ok .addressSizeFault)) := by
    obtain ⟨u, hu, hcell, hwalk⟩ := exec_moveFromPair_walk ha hm hd hr hp
    have hstart := (hwalk true).trans (congrArg some (walkStart_of_bits64 hlayout true))
    exact ⟨u, hu, hcell, fun h => hstart.trans (congrArg some (walkStart64_of_misaligned h)), fun h hset =>
      hstart.trans (congrArg some (walkStart64_of_fault h (addressSizeFault64_iff.2 hset)))⟩
  have pair : (t != 15 && t2 != 15) = true := by simp [ht, ht2]
  simp only [List.forall_mem_cons, List.not_mem_nil, false_implies, implies_true, and_true]
  exact ⟨stops (i := .mcrrA32 q t t2) pair rfl rfl, stops (i := .mcrrT32 t t2) pair rfl rfl⟩

/-! ### The bits handed over -/

theorem ofBool_beq_one (b : Bool) : (BitVec.ofBool b == 1) = b := by
  cases b <;> rfl

theorem cnpBit_bits64 (c : Config) (cell : DWord) :
    cnpBit c .bits64 cell = if c.cnpImplemented then some (cell.getLsbD 0) else none := by
  have hcnp : (fields64 cell).cnp = BitVec.ofBool (cell.getLsbD 0) := extractLsb'_one_eq_ofBool cell 0
  rw [cnpBit, hcnp, ofBool_beq_one]

theorem impBit_bits32 (c : Config) (cell : DWord) :
    impBit c .bits32 cell = if c.impFeatures then some (cell.getLsbD 2) else none := by
  have himp : (fields32 cell).imp = BitVec.ofBool (cell.getLsbD 2) := extractLsb'_one_eq_ofBool cell 2
  rw [impBit, himp, ofBool_beq_one]

/-- Settles O47. -/
theorem walkTakesAsidAndCnpFromTheCell : Obligations.WalkTakesAsidAndCnpFromTheCell := by
  intro c e cell hlayout haligned
  refine ⟨fun himpl hbit => ?_, fun hfault => ⟨table64 c e cell, ?_, ?_, rfl, cnpBit_bits64 c cell, rfl, rfl⟩⟩
  · rw [walkStart_of_bits64 hlayout, walkStart64_of_broken_promise]
    simp [cnpBit_bits64, himpl, hbit]
  · rw [walkStart_of_bits64 hlayout, walkStart64_of_aligned haligned hfault]
  · exact tableBase64_of_aligned haligned

/-- Settles O49. -/
theorem walkTakesBaseAttributesAndImpFromTheCell : Obligations.WalkTakesBaseAttributesAndImpFromTheCell := by
  intro c e p cell hlayout x
  rw [walkStart_of_bits32 hlayout]
  refine ⟨fun h => walkStart32_of_misaligned (misaligned32_iff.2 h), fun h => ?_⟩
  have haligned : misaligned32 cell e.ttbcrN = false := aligned32_iff.2 h
  refine ⟨table32 c e cell, _, walkStart32_of_aligned haligned, tableBase32_of_aligned haligned, ?_, fun k hk => ?_,
    rfl, rfl, rfl, impBit_bits32 c cell⟩
  · exact BitVec.toNat_setWidth_of_le (by decide)
  · have hbase : (table32 c e cell).base.getLsbD k = (clearBelow (lowWord cell) x).getLsbD k := by
      simp [table32, hk, x, baseShift32]
    by_cases h32 : k < 32
    · rw [hbase, getLsbD_base32 x h32]
      simp [h32]
    · rw [hbase, BitVec.getLsbD_of_ge _ k (by omega)]
      simp [h32]

end Sys2Proof.Machine
